-- ==== Sys2Proof/Word.lean ====
section
/-! DEFINITION. The word types of the machine (00_scope.md R7, R9, R10): all values are unsigned. -/

namespace Sys2Proof

/-- A byte: a general register, a timer, a memory cell, a byte immediate kk (R7 REG_WIDTH, TIMER_WIDTH). -/
abbrev Byte := BitVec 8

/-- A 16-bit value: the pc, the index register, a stack entry, an instruction word (R7 PC_WIDTH, INDEX_WIDTH). -/
abbrev Word := BitVec 16

/-- The 12-bit address immediate nnn (R92). -/
abbrev Addr := BitVec 12

/-- The number of a general register, the x or y field (R7 NREGS, R92). -/
abbrev Reg := Fin 16

/-- The n field of Dxyn: a number of sprite rows from 0 to 15 (R93). -/
abbrev RowCount := Fin 16

end Sys2Proof
end

