-- ==== Sys2Proof/Syntax.lean ====
section
/-! DEFINITION. The instructions: one constructor per row of spec/opcode_table.json (30_encoding.md R95, R97: 35 rows). -/

namespace Sys2Proof

/-- The 35 instructions, in the opcode table's order. Operands carry exactly the fields of R92 that the row has. -/
inductive Instr where
  /-- 0000 (R120) -/
  | nop
  /-- 00E0 (R140) -/
  | cls
  /-- 00EE (R121) -/
  | ret
  /-- 1nnn (R122) -/
  | jp (nnn : Addr)
  /-- 2nnn (R123) -/
  | call (nnn : Addr)
  /-- 3xkk (R161) -/
  | seImm (x : Reg) (kk : Byte)
  /-- 4xkk (R162) -/
  | sneImm (x : Reg) (kk : Byte)
  /-- 5xy0 (R163) -/
  | seReg (x y : Reg)
  /-- 6xkk (R172) -/
  | ldImm (x : Reg) (kk : Byte)
  /-- 7xkk (R173) -/
  | addImm (x : Reg) (kk : Byte)
  /-- 8xy0 (R174) -/
  | ldReg (x y : Reg)
  /-- 8xy1 (R175) -/
  | orReg (x y : Reg)
  /-- 8xy2 (R176) -/
  | andReg (x y : Reg)
  /-- 8xy3 (R177) -/
  | xorReg (x y : Reg)
  /-- 8xy4 (R178) -/
  | addReg (x y : Reg)
  /-- 8xy5 (R179) -/
  | sub (x y : Reg)
  /-- 8xy6 (R180). The y field is not read (R98); it is kept so that no bit of the word is lost.
  DESIGN CHOICE, safe: notes/assumptions/22.md. -/
  | shr (x y : Reg)
  /-- 8xy7 (R181) -/
  | subn (x y : Reg)
  /-- 8xyE (R182). The y field is not read (R98); it is kept as in `shr`. -/
  | shl (x y : Reg)
  /-- 9xy0 (R164) -/
  | sneReg (x y : Reg)
  /-- Annn (R200) -/
  | ldI (nnn : Addr)
  /-- Bnnn (R124) -/
  | jpV0 (nnn : Addr)
  /-- Cxkk (R183) -/
  | rnd (x : Reg) (kk : Byte)
  /-- Dxyn (R141) -/
  | drw (x y : Reg) (n : RowCount)
  /-- Ex9E (R220) -/
  | skp (x : Reg)
  /-- ExA1 (R221) -/
  | sknp (x : Reg)
  /-- Fx07 (R222) -/
  | ldVDt (x : Reg)
  /-- Fx0A (R223) -/
  | ldVK (x : Reg)
  /-- Fx15 (R224) -/
  | ldDtV (x : Reg)
  /-- Fx18 (R225) -/
  | ldStV (x : Reg)
  /-- Fx1E (R201) -/
  | addI (x : Reg)
  /-- Fx29 (R202) -/
  | ldF (x : Reg)
  /-- Fx33 (R203) -/
  | ldB (x : Reg)
  /-- Fx55 (R204) -/
  | ldMemStore (x : Reg)
  /-- Fx65 (R205) -/
  | ldMemLoad (x : Reg)
  deriving DecidableEq, Repr

end Sys2Proof
end

