-- ==== Sys2Proof/Decode.lean ====
section
/-! DEFINITION. Decoding and encoding (30_encoding.md R92 to R101). Decoding is total: a word that matches no row is
refused by name (`unknownWord`), and Machine/Step.lean then runs it as the no-op of R99. -/

namespace Sys2Proof

/-! ### Fields (R92) -/

/-- op = w[15:12] -/
def fieldOp (w : Word) : Nat := (w.extractLsb' 12 4).toNat

/-- x = w[11:8] -/
def fieldX (w : Word) : Reg := (w.extractLsb' 8 4).toFin

/-- y = w[7:4] -/
def fieldY (w : Word) : Reg := (w.extractLsb' 4 4).toFin

/-- n = w[3:0] -/
def fieldN (w : Word) : RowCount := (w.extractLsb' 0 4).toFin

/-- kk = w[7:0] -/
def fieldKk (w : Word) : Byte := w.extractLsb' 0 8

/-- nnn = w[11:0] -/
def fieldNnn (w : Word) : Addr := w.extractLsb' 0 12

/-! ### Byte order (R63, R90): the first byte is bits 15:8 -/

/-- The word of two consecutive bytes, the one at the lower address first. -/
def wordOfBytes (first second : Byte) : Word := first ++ second

/-- The byte of a word that is stored at the lower address: bits 15:8. -/
def firstByte (w : Word) : Byte := w.extractLsb' 8 8

/-- The byte of a word that is stored at the higher address: bits 7:0. -/
def secondByte (w : Word) : Byte := w.extractLsb' 0 8

/-! ### Decoding (R95) -/

/-- Why bytes are not decoded to an instruction. -/
inductive DecodeError where
  /-- The word matches no row of the opcode table (R99). It is no fault: the step treats it as a no-op. -/
  | unknownWord (w : Word)
  /-- Fewer than two bytes were given. A fetch always gives two. -/
  | truncated
  deriving DecidableEq, Repr

/-- The rows with op = 0: the whole word selects. -/
def decodeOp0 (w : Word) : Except DecodeError Instr :=
  if w = 0x0000#16 then .ok .nop
  else if w = 0x00E0#16 then .ok .cls
  else if w = 0x00EE#16 then .ok .ret
  else .error (.unknownWord w)

/-- The rows with op = 8: n selects. -/
def decodeOp8 (w : Word) : Except DecodeError Instr :=
  match (fieldN w).val with
  | 0x0 => .ok (.ldReg (fieldX w) (fieldY w))
  | 0x1 => .ok (.orReg (fieldX w) (fieldY w))
  | 0x2 => .ok (.andReg (fieldX w) (fieldY w))
  | 0x3 => .ok (.xorReg (fieldX w) (fieldY w))
  | 0x4 => .ok (.addReg (fieldX w) (fieldY w))
  | 0x5 => .ok (.sub (fieldX w) (fieldY w))
  | 0x6 => .ok (.shr (fieldX w) (fieldY w))
  | 0x7 => .ok (.subn (fieldX w) (fieldY w))
  | 0xE => .ok (.shl (fieldX w) (fieldY w))
  | _ => .error (.unknownWord w)

/-- The rows with op = E: kk selects. -/
def decodeOpE (w : Word) : Except DecodeError Instr :=
  match (fieldKk w).toNat with
  | 0x9E => .ok (.skp (fieldX w))
  | 0xA1 => .ok (.sknp (fieldX w))
  | _ => .error (.unknownWord w)

/-- The rows with op = F: kk selects. -/
def decodeOpF (w : Word) : Except DecodeError Instr :=
  match (fieldKk w).toNat with
  | 0x07 => .ok (.ldVDt (fieldX w))
  | 0x0A => .ok (.ldVK (fieldX w))
  | 0x15 => .ok (.ldDtV (fieldX w))
  | 0x18 => .ok (.ldStV (fieldX w))
  | 0x1E => .ok (.addI (fieldX w))
  | 0x29 => .ok (.ldF (fieldX w))
  | 0x33 => .ok (.ldB (fieldX w))
  | 0x55 => .ok (.ldMemStore (fieldX w))
  | 0x65 => .ok (.ldMemLoad (fieldX w))
  | _ => .error (.unknownWord w)

/-- The 35-way dispatch on the four nibbles (R95). -/
def decodeWord (w : Word) : Except DecodeError Instr :=
  match fieldOp w with
  | 0x0 => decodeOp0 w
  | 0x1 => .ok (.jp (fieldNnn w))
  | 0x2 => .ok (.call (fieldNnn w))
  | 0x3 => .ok (.seImm (fieldX w) (fieldKk w))
  | 0x4 => .ok (.sneImm (fieldX w) (fieldKk w))
  | 0x5 => if (fieldN w).val = 0 then .ok (.seReg (fieldX w) (fieldY w)) else .error (.unknownWord w)
  | 0x6 => .ok (.ldImm (fieldX w) (fieldKk w))
  | 0x7 => .ok (.addImm (fieldX w) (fieldKk w))
  | 0x8 => decodeOp8 w
  | 0x9 => if (fieldN w).val = 0 then .ok (.sneReg (fieldX w) (fieldY w)) else .error (.unknownWord w)
  | 0xA => .ok (.ldI (fieldNnn w))
  | 0xB => .ok (.jpV0 (fieldNnn w))
  | 0xC => .ok (.rnd (fieldX w) (fieldKk w))
  | 0xD => .ok (.drw (fieldX w) (fieldY w) (fieldN w))
  | 0xE => decodeOpE w
  | 0xF => decodeOpF w
  | _ => .error (.unknownWord w)

/-- Decoding from bytes: every instruction is two bytes, the high one first (R63, R101). -/
def decode : List Byte → Except DecodeError (Instr × List Byte)
  | first :: second :: rest =>
    match decodeWord (wordOfBytes first second) with
    | .ok i => .ok (i, rest)
    | .error e => .error e
  | _ => .error .truncated

/-! ### Encoding (R94: the five layouts) -/

/-- Format A: op[4] nnn[12]. -/
def formatA (op : BitVec 4) (nnn : Addr) : Word := op ++ nnn

/-- Format B: op[4] x[4] kk[8]. Format S is the same layout with the function byte in place of kk. -/
def formatB (op : BitVec 4) (x : Reg) (kk : Byte) : Word := (op ++ BitVec.ofFin (w := 4) x) ++ kk

/-- Format R: op[4] x[4] y[4] n[4]. -/
def formatR (op : BitVec 4) (x y : Reg) (n : BitVec 4) : Word :=
  (op ++ BitVec.ofFin (w := 4) x) ++ (BitVec.ofFin (w := 4) y ++ n : BitVec 8)

/-- The word of an instruction, row by row of opcode_table.json. -/
def encode : Instr → Word
  | .nop => 0x0000#16
  | .cls => 0x00E0#16
  | .ret => 0x00EE#16
  | .jp nnn => formatA 0x1#4 nnn
  | .call nnn => formatA 0x2#4 nnn
  | .seImm x kk => formatB 0x3#4 x kk
  | .sneImm x kk => formatB 0x4#4 x kk
  | .seReg x y => formatR 0x5#4 x y 0x0#4
  | .ldImm x kk => formatB 0x6#4 x kk
  | .addImm x kk => formatB 0x7#4 x kk
  | .ldReg x y => formatR 0x8#4 x y 0x0#4
  | .orReg x y => formatR 0x8#4 x y 0x1#4
  | .andReg x y => formatR 0x8#4 x y 0x2#4
  | .xorReg x y => formatR 0x8#4 x y 0x3#4
  | .addReg x y => formatR 0x8#4 x y 0x4#4
  | .sub x y => formatR 0x8#4 x y 0x5#4
  | .shr x y => formatR 0x8#4 x y 0x6#4
  | .subn x y => formatR 0x8#4 x y 0x7#4
  | .shl x y => formatR 0x8#4 x y 0xE#4
  | .sneReg x y => formatR 0x9#4 x y 0x0#4
  | .ldI nnn => formatA 0xA#4 nnn
  | .jpV0 nnn => formatA 0xB#4 nnn
  | .rnd x kk => formatB 0xC#4 x kk
  | .drw x y n => formatR 0xD#4 x y (BitVec.ofFin (w := 4) n)
  | .skp x => formatB 0xE#4 x 0x9E#8
  | .sknp x => formatB 0xE#4 x 0xA1#8
  | .ldVDt x => formatB 0xF#4 x 0x07#8
  | .ldVK x => formatB 0xF#4 x 0x0A#8
  | .ldDtV x => formatB 0xF#4 x 0x15#8
  | .ldStV x => formatB 0xF#4 x 0x18#8
  | .addI x => formatB 0xF#4 x 0x1E#8
  | .ldF x => formatB 0xF#4 x 0x29#8
  | .ldB x => formatB 0xF#4 x 0x33#8
  | .ldMemStore x => formatB 0xF#4 x 0x55#8
  | .ldMemLoad x => formatB 0xF#4 x 0x65#8

/-- The bytes of an instruction as memory holds them. -/
def encodeBytes (i : Instr) : List Byte := [firstByte (encode i), secondByte (encode i)]

/-! ### The opcode table as data (R95, R96; the masks and match values of opcode_table.json) -/

/-- One row of the opcode table: a word belongs to it when its masked bits equal `value`. -/
structure OpcodeRow where
  mnemonic : String
  value : Word
  mask : Word
  deriving DecidableEq, Repr

/-- Rows of ops 0 to 7. -/
def rowsOps0to7 : List OpcodeRow :=
  [⟨"NOP", 0x0000#16, 0xFFFF#16⟩, ⟨"CLS", 0x00E0#16, 0xFFFF#16⟩, ⟨"RET", 0x00EE#16, 0xFFFF#16⟩,
   ⟨"JP", 0x1000#16, 0xF000#16⟩, ⟨"CALL", 0x2000#16, 0xF000#16⟩, ⟨"SE_IMM", 0x3000#16, 0xF000#16⟩,
   ⟨"SNE_IMM", 0x4000#16, 0xF000#16⟩, ⟨"SE_REG", 0x5000#16, 0xF00F#16⟩, ⟨"LD_IMM", 0x6000#16, 0xF000#16⟩,
   ⟨"ADD_IMM", 0x7000#16, 0xF000#16⟩]

/-- Rows of op 8. -/
def rowsOp8 : List OpcodeRow :=
  [⟨"LD_REG", 0x8000#16, 0xF00F#16⟩, ⟨"OR", 0x8001#16, 0xF00F#16⟩, ⟨"AND", 0x8002#16, 0xF00F#16⟩,
   ⟨"XOR", 0x8003#16, 0xF00F#16⟩, ⟨"ADD_REG", 0x8004#16, 0xF00F#16⟩, ⟨"SUB", 0x8005#16, 0xF00F#16⟩,
   ⟨"SHR", 0x8006#16, 0xF00F#16⟩, ⟨"SUBN", 0x8007#16, 0xF00F#16⟩, ⟨"SHL", 0x800E#16, 0xF00F#16⟩]

/-- Rows of ops 9 to E. -/
def rowsOps9toE : List OpcodeRow :=
  [⟨"SNE_REG", 0x9000#16, 0xF00F#16⟩, ⟨"LD_I", 0xA000#16, 0xF000#16⟩, ⟨"JP_V0", 0xB000#16, 0xF000#16⟩,
   ⟨"RND", 0xC000#16, 0xF000#16⟩, ⟨"DRW", 0xD000#16, 0xF000#16⟩, ⟨"SKP", 0xE09E#16, 0xF0FF#16⟩,
   ⟨"SKNP", 0xE0A1#16, 0xF0FF#16⟩]

/-- Rows of op F. -/
def rowsOpF : List OpcodeRow :=
  [⟨"LD_V_DT", 0xF007#16, 0xF0FF#16⟩, ⟨"LD_V_K", 0xF00A#16, 0xF0FF#16⟩, ⟨"LD_DT_V", 0xF015#16, 0xF0FF#16⟩,
   ⟨"LD_ST_V", 0xF018#16, 0xF0FF#16⟩, ⟨"ADD_I", 0xF01E#16, 0xF0FF#16⟩, ⟨"LD_F", 0xF029#16, 0xF0FF#16⟩,
   ⟨"LD_B", 0xF033#16, 0xF0FF#16⟩, ⟨"LD_MEM_STORE", 0xF055#16, 0xF0FF#16⟩, ⟨"LD_MEM_LOAD", 0xF065#16, 0xF0FF#16⟩]

/-- The 35 rows. -/
def opcodeTable : List OpcodeRow := rowsOps0to7 ++ (rowsOp8 ++ (rowsOps9toE ++ rowsOpF))

/-- The word belongs to the row. -/
def OpcodeRow.accepts (r : OpcodeRow) (w : Word) : Bool := w &&& r.mask == r.value

/-- The row's mnemonic for each instruction, as opcode_table.json spells it. -/
def Instr.mnemonic : Instr → String
  | .nop => "NOP"
  | .cls => "CLS"
  | .ret => "RET"
  | .jp _ => "JP"
  | .call _ => "CALL"
  | .seImm _ _ => "SE_IMM"
  | .sneImm _ _ => "SNE_IMM"
  | .seReg _ _ => "SE_REG"
  | .ldImm _ _ => "LD_IMM"
  | .addImm _ _ => "ADD_IMM"
  | .ldReg _ _ => "LD_REG"
  | .orReg _ _ => "OR"
  | .andReg _ _ => "AND"
  | .xorReg _ _ => "XOR"
  | .addReg _ _ => "ADD_REG"
  | .sub _ _ => "SUB"
  | .shr _ _ => "SHR"
  | .subn _ _ => "SUBN"
  | .shl _ _ => "SHL"
  | .sneReg _ _ => "SNE_REG"
  | .ldI _ => "LD_I"
  | .jpV0 _ => "JP_V0"
  | .rnd _ _ => "RND"
  | .drw _ _ _ => "DRW"
  | .skp _ => "SKP"
  | .sknp _ => "SKNP"
  | .ldVDt _ => "LD_V_DT"
  | .ldVK _ => "LD_V_K"
  | .ldDtV _ => "LD_DT_V"
  | .ldStV _ => "LD_ST_V"
  | .addI _ => "ADD_I"
  | .ldF _ => "LD_F"
  | .ldB _ => "LD_B"
  | .ldMemStore _ => "LD_MEM_STORE"
  | .ldMemLoad _ => "LD_MEM_LOAD"

/-! ### The host's question -/

/-- The instruction the decoder reads from a row's word whose bits are w, of which only the low nbits are given: the
word laid out as memory stores it (high byte first) and given to `decode`. Every instruction is one 16-bit word. -/
def decodeTableWord (nbits w : Nat) : Option Instr :=
  let word : Word := BitVec.ofNat 16 (w % 2 ^ nbits)
  match decode [firstByte word, secondByte word] with
  | .ok (i, _) => some i
  | .error _ => none

end Sys2Proof
end

