-- ==== Sys2Proof/Config.lean ====
section
/-! DEFINITION. What the source leaves open and the model takes as an argument (00_scope.md R8), and the one free
value (RAND). `Config` is carried unchanged in State.config, so every statement about all states is about every value
of these parameters; the spec's defaults stand in Machine/Defaults.lean. -/

namespace Sys2Proof

/-- Parameter VF_ORDER (R8, 43_alu.md R171): the order in which 8xy4..8xyE write Vx and VF, seen only when x = F. -/
inductive VfOrder where
  /-- Writes follow the order of the dispatch row's text (the spec's default, D4). -/
  | textOrder
  /-- Every source is read first and VF is written last. -/
  | flagLast
  deriving DecidableEq, Repr

/-- Parameter RESET_POLICY (R8, 10_state.md R40): what a newly created state holds where the source gives no value. -/
inductive ResetPolicy where
  /-- All zero (the spec's default, D12): `State.reset`. -/
  | zero
  /-- Free draws, but for pc, SP, FAULT and the glyph table. -/
  | arbitrary
  deriving DecidableEq, Repr

/-- Parameter GLYPHS (R8, 10_state.md R33): the 80 bytes at 0x000..0x04F. -/
abbrev GlyphTable := Vector Byte 80

/-- The parameters fixed for one machine. -/
structure Config where
  /-- GLYPHS -/
  glyphs : GlyphTable
  /-- VF_ORDER -/
  vfOrder : VfOrder
  deriving DecidableEq, Repr

/-- FREE VALUE (R8 RAND, 43_alu.md R183, D15): the byte the k-th execution of Cxkk draws. No body, so nothing can be
proved of its value: safe. Two reads at one index are equal, which is DESIGN CHOICE and unsafe for a claim that compares
the draws of two runs (91_not_in_source.md N11): notes/assumptions/4.md. -/
opaque Config.rand8 : Nat → Byte

end Sys2Proof
end

