-- ==== Sys2Proof/Machine/Defaults.lean ====
section
/-! DEFINITION. The values of the reset state (10_state.md R40, 70_reset_and_hazards.md R281) and the spec's defaults
for the named parameters (00_scope.md R8), under names of their own so that State.reset only assembles them. -/

namespace Sys2Proof.Machine

/-- The boot offset and reset pc (R7 BOOT_OFFSET, R40): stated by the source. -/
def bootOffset : Word := 0x200#16

/-- Glyphs 0 to 3 of the default font (R33). -/
def glyphs0to3 : List Byte :=
  [0xF0#8, 0x90#8, 0x90#8, 0x90#8, 0xF0#8] ++ [0x20#8, 0x60#8, 0x20#8, 0x20#8, 0x70#8] ++
  [0xF0#8, 0x10#8, 0xF0#8, 0x80#8, 0xF0#8] ++ [0xF0#8, 0x10#8, 0xF0#8, 0x10#8, 0xF0#8]

/-- Glyphs 4 to 7 of the default font (R33). -/
def glyphs4to7 : List Byte :=
  [0x90#8, 0x90#8, 0xF0#8, 0x10#8, 0x10#8] ++ [0xF0#8, 0x80#8, 0xF0#8, 0x10#8, 0xF0#8] ++
  [0xF0#8, 0x80#8, 0xF0#8, 0x90#8, 0xF0#8] ++ [0xF0#8, 0x10#8, 0x20#8, 0x40#8, 0x40#8]

/-- Glyphs 8 to B of the default font (R33). -/
def glyphs8toB : List Byte :=
  [0xF0#8, 0x90#8, 0xF0#8, 0x90#8, 0xF0#8] ++ [0xF0#8, 0x90#8, 0xF0#8, 0x10#8, 0xF0#8] ++
  [0xF0#8, 0x90#8, 0xF0#8, 0x90#8, 0x90#8] ++ [0xE0#8, 0x90#8, 0xE0#8, 0x90#8, 0xE0#8]

/-- Glyphs C to F of the default font (R33). -/
def glyphsCtoF : List Byte :=
  [0xF0#8, 0x80#8, 0x80#8, 0x80#8, 0xF0#8] ++ [0xE0#8, 0x90#8, 0x90#8, 0x90#8, 0xE0#8] ++
  [0xF0#8, 0x80#8, 0xF0#8, 0x80#8, 0xF0#8] ++ [0xF0#8, 0x80#8, 0xF0#8, 0x80#8, 0x80#8]

/-- The default of GLYPHS: the conventional font (R33, D13).
DESIGN CHOICE, unsafe (the spec has the bytes from general knowledge): notes/assumptions/1.md. -/
def defaultGlyphs : GlyphTable := ⟨⟨(glyphs0to3 ++ glyphs4to7) ++ (glyphs8toB ++ glyphsCtoF)⟩, rfl⟩

/-- The default of VF_ORDER (R171, D4). DESIGN CHOICE, unsafe: notes/assumptions/3.md. -/
def defaultVfOrder : VfOrder := .textOrder

/-- The parameters' defaults (R8). -/
def defaultConfig : Config := ⟨defaultGlyphs, defaultVfOrder⟩

/-- What every 8-bit register (V0..VF, DT, ST) holds after reset (R40, D12).
DESIGN CHOICE, unsafe: notes/assumptions/2.md. -/
def resetByte : Byte := 0x00#8

/-- What I and every stack entry hold after reset (R40, D12). DESIGN CHOICE, unsafe: notes/assumptions/2.md. -/
def resetWord : Word := 0x0000#16

/-- What the bytes 0x050..0xFFF hold after reset (R40, D12). DESIGN CHOICE, unsafe: notes/assumptions/2.md. -/
def resetMemByte : Byte := 0x00#8

end Sys2Proof.Machine
end

