-- ==== Sys2Proof/Machine/State.lean ====
section
/-! DEFINITION. The state of the core (10_state.md R20: nothing else in the core is mutable), the reasons an outcome
can stop, and the state after reset (R40). -/

namespace Sys2Proof.Machine

/-- The FAULT indicator's causes with the information each records (60_exceptions.md R241). `a` is the fetch address
of the faulting instruction and `w` its word. -/
inductive FaultRecord where
  /-- Code 1: fetch with pc > 0xFFE (R243). -/
  | fetchRange (a : Word)
  /-- Code 2: Dxyn, Fx33, Fx55 or Fx65 touching an address above 0xFFF (R242). The address is exact (R62), so it is
  a number and not a 16-bit word. -/
  | dataRange (a w : Word) (addr : Nat)
  /-- Code 3: Ex9E or ExA1 with V[x] > 0xF (R243). -/
  | keyRange (a w : Word) (key : Byte)
  deriving DecidableEq, Repr

/-- The memory: the sorted list of the bytes that differ from the reset contents (Machine/Ops.lean, Memory.wf). -/
abbrev Memory := List Host.Cell

/-- The framebuffer: row y holds the 64 pixels (0, y)..(63, y) as bits 0..63, so the pixel of linear index
p = y*64 + x is bit p mod 64 of row p / 64 (R34). DESIGN CHOICE, safe: notes/assumptions/15.md. -/
abbrev Screen := Vector (BitVec 64) 32

/-- The state tuple of R20, and two fields of the model's own (randCount, config). -/
structure State where
  /-- V0..VF (R21, R22) -/
  v : Vector Byte 16
  /-- I (R28) -/
  index : Word
  /-- pc (R24) -/
  pc : Word
  /-- STK[0..15] (R29) -/
  stk : Vector Word 16
  /-- SP, the number of stack entries in use (R29) -/
  sp : Fin 17
  /-- DT (R31) -/
  dt : Byte
  /-- ST (R31) -/
  st : Byte
  /-- MEM (R32) -/
  mem : Memory
  /-- SCR (R34) -/
  scr : Screen
  /-- KEY (R35) -/
  key : Vector Bool 16
  /-- FAULT (R36, R241); `none` is NONE -/
  fault : Option FaultRecord
  /-- The model's own: how many RAND draws were made. DESIGN CHOICE: safe as to the value of a draw, unsafe for a
  claim that compares the draws of two runs: notes/assumptions/4.md. -/
  randCount : Nat
  /-- The model's own: the parameters GLYPHS and VF_ORDER (00_scope.md R8), which nothing changes. -/
  config : Config
  deriving DecidableEq, Repr

/-- Why the outcome `fault` is answered: never. The spec's fault stop is a state of the core with FAULT set
(R244, R245), so a raise is a NEXT state here, and the type has no value. Safe: notes/assumptions/5.md. -/
inductive Fault : Type
  deriving DecidableEq, Repr

/-- Why an operation is refused. -/
inductive Refusal where
  /-- Raised by exec's arm for an instruction that has no meaning yet. No arm raises it. Safe: it stops. -/
  | notModelled (mnemonic : String)
  /-- Raised by the host operation LOAD for more than 3584 bytes, which the source calls undefined (R251, U1).
  Safe: it stops. -/
  | loadTooLong (length : Nat)
  /-- Raised by the host operation SET_KEY for a key number above 15 (R255, U16). Safe: it stops. -/
  | keyOutOfRange (key : Nat)
  deriving DecidableEq, Repr

/-- The state after reset of the machine with the given parameters, under RESET_POLICY = zero (R40, R280, R281). -/
def State.resetOf (config : Config) : State where
  v := Vector.replicate 16 resetByte
  index := resetWord
  pc := bootOffset
  stk := Vector.replicate 16 resetWord
  sp := 0
  dt := resetByte
  st := resetByte
  mem := []
  scr := Vector.replicate 32 0#64
  key := Vector.replicate 16 false
  fault := none
  randCount := 0
  config := config

/-- The state after reset with the spec's default parameters. -/
def State.reset : State := State.resetOf defaultConfig

end Sys2Proof.Machine
end

