-- ==== Sys2Proof/Machine/Ops.lean ====
section
/-! DEFINITION. The shared operations: memory, fetch, taking a fault, the return stack, the framebuffer's pixels, and
one named update for each field of State. -/

namespace Sys2Proof.Machine

/-- The outcome of one operation of this machine. -/
abbrev Result := Host.Outcome State Fault Refusal

/-! ### Named updates -/

def State.setV (s : State) (v : Vector Byte 16) : State := { s with v := v }
def State.setIndex (s : State) (a : Word) : State := { s with index := a }
def State.setPc (s : State) (a : Word) : State := { s with pc := a }
def State.setStack (s : State) (stk : Vector Word 16) (sp : Fin 17) : State := { s with stk := stk, sp := sp }
def State.setDt (s : State) (b : Byte) : State := { s with dt := b }
def State.setSt (s : State) (b : Byte) : State := { s with st := b }
def State.setMem (s : State) (m : Memory) : State := { s with mem := m }
def State.setScr (s : State) (scr : Screen) : State := { s with scr := scr }
def State.setKey (s : State) (key : Vector Bool 16) : State := { s with key := key }
def State.setFault (s : State) (f : Option FaultRecord) : State := { s with fault := f }
def State.setRandCount (s : State) (n : Nat) : State := { s with randCount := n }

/-! ### General registers (10_state.md R21): none is hardwired -/

/-- V[x] -/
def State.reg (s : State) (x : Reg) : Byte := s.v[x.val]

/-- V[x] <- b -/
def State.setReg (s : State) (x : Reg) (b : Byte) : State := s.setV (s.v.set x.val b)

/-! ### Memory (10_state.md R32, 20_memory.md R60 to R62) -/

/-- What an address that the list does not name reads as: the reset contents (R40). The glyph table is at
0x000..0x04F (R33), the rest is 0 (D12; DESIGN CHOICE, unsafe: notes/assumptions/2.md). -/
def Memory.unlisted (g : GlyphTable) (a : Nat) : Byte := if h : a < 80 then g[a] else resetMemByte

/-- The byte the list names for an address. -/
def Memory.lookup : Memory → Nat → Option Byte
  | [], _ => none
  | (k, b) :: m, a => if k = a then some b else Memory.lookup m a

/-- The byte at an address. -/
def Memory.read (g : GlyphTable) (m : Memory) (a : Nat) : Byte :=
  match Memory.lookup m a with
  | some b => b
  | none => Memory.unlisted g a

/-- The list without an entry for the address. -/
def Memory.remove : Memory → Nat → Memory
  | [], _ => []
  | (k, b) :: m, a => if k = a then Memory.remove m a else (k, b) :: Memory.remove m a

/-- The sorted list with the entry (a, b) put in its place. -/
def Memory.insert : Memory → Nat → Byte → Memory
  | [], a, b => [(a, b)]
  | (k, c) :: m, a, b =>
    if a < k then (a, b) :: (k, c) :: m
    else if a = k then (a, b) :: m
    else (k, c) :: Memory.insert m a b

/-- The memory after one byte is written, in canonical form again: a byte equal to what an unlisted address reads as
is not listed. -/
def Memory.write (g : GlyphTable) (m : Memory) (a : Nat) (b : Byte) : Memory :=
  if b = Memory.unlisted g a then Memory.remove m a else Memory.insert m a b

/-- The canonical form: addresses strictly rising and inside 0x000..0xFFF, and no entry equal to what an unlisted
address reads as. -/
abbrev Memory.wf (g : GlyphTable) (m : Memory) : Prop :=
  m.Pairwise (fun c d => c.1 < d.1) ∧ ∀ c ∈ m, c.1 < 4096 ∧ c.2 ≠ Memory.unlisted g c.1

/-- MEM[a], for any number a. The range check is in `memRead`. -/
def State.byteAt (s : State) (a : Nat) : Byte := Memory.read s.config.glyphs s.mem a

/-- MemRead(a, 1) (R13, R62): the byte, or the out-of-range address that is to be reported. -/
def memRead (s : State) (a : Nat) : Except Nat Byte := if a ≤ 0xFFF then .ok (s.byteAt a) else .error a

/-- MemRead at a, a+1, .., a+n-1, ascending; the first address out of range is reported (R246). -/
def readBytes (s : State) (a : Nat) : Nat → Except Nat (List Byte)
  | 0 => .ok []
  | n + 1 =>
    match memRead s a with
    | .error bad => .error bad
    | .ok b =>
      match readBytes s (a + 1) n with
      | .error bad => .error bad
      | .ok bs => .ok (b :: bs)

/-- MemWrite(a, 1, b) on the memory (R13, R62): the new memory, or the out-of-range address. -/
def memWrite (g : GlyphTable) (m : Memory) (a : Nat) (b : Byte) : Except Nat Memory :=
  if a ≤ 0xFFF then .ok (Memory.write g m a b) else .error a

/-- MemWrite of the bytes at a, a+1, .., ascending; the first address out of range is reported (R246). The new memory
is answered only when every write is in range, so a fault leaves no partial write (R244). -/
def writeBytes (g : GlyphTable) (m : Memory) (a : Nat) : List Byte → Except Nat Memory
  | [] => .ok m
  | b :: bs =>
    match memWrite g m a b with
    | .error bad => .error bad
    | .ok m' => writeBytes g m' (a + 1) bs

/-! ### Fetch (30_encoding.md R90, R91) -/

/-- FetchWord(pc): the big-endian word at pc, or the address for FetchRange. -/
def fetchWord (s : State) : Except Word Word :=
  if s.pc.toNat ≤ 0xFFE then .ok (wordOfBytes (s.byteAt s.pc.toNat) (s.byteAt (s.pc.toNat + 1))) else .error s.pc

/-- pc <- (pc + 2) mod 2^16, before the instruction is dispatched (R24, R91). -/
def State.advancePc (s : State) : State := s.setPc (s.pc + 2#16)

/-! ### Taking a fault (60_exceptions.md R244): the one shared operation. There is no return from a fault (R245, R248). -/

/-- The state is as before the step, pc is the address `a` of the faulting instruction, and FAULT records the cause.
Nothing else is saved, and control goes to no handler. -/
def takeFault (a : Word) (record : FaultRecord) (s : State) : Result := .next ((s.setPc a).setFault (some record))

/-- The address the running instruction was fetched from: a rule starts with pc = a + 2 (R24). -/
def State.fetchedFrom (s : State) : Word := s.pc - 2#16

/-- raise DataRange(addr) by the instruction i, of which s is the state its rule started from (R242). -/
def raiseDataRange (i : Instr) (addr : Nat) (s : State) : Result :=
  takeFault s.fetchedFrom (.dataRange s.fetchedFrom (encode i) addr) s

/-- raise KeyRange(key) by the instruction i, of which s is the state its rule started from (R243). -/
def raiseKeyRange (i : Instr) (key : Byte) (s : State) : Result :=
  takeFault s.fetchedFrom (.keyRange s.fetchedFrom (encode i) key) s

/-- raise FetchRange(a) at the fetch from a, before pc advances (R243). -/
def raiseFetchRange (a : Word) (s : State) : Result := takeFault a (.fetchRange a) s

/-- The cause codes of R241. -/
def faultCode : Option FaultRecord → Nat
  | none => 0
  | some (.fetchRange _) => 1
  | some (.dataRange _ _ _) => 2
  | some (.keyRange _ _ _) => 3

/-! ### The return stack (10_state.md R30) -/

/-- Push(v): `none` when the stack is full. -/
def State.push (s : State) (a : Word) : Option State :=
  if h : s.sp.val < 16 then some (s.setStack (s.stk.set s.sp.val a) ⟨s.sp.val + 1, by omega⟩) else none

/-- Pop(): the popped value and the state after it; 0 and no change when the stack is empty. A popped entry keeps its
value. -/
def State.pop (s : State) : Word × State :=
  if h : 0 < s.sp.val then
    (s.stk[s.sp.val - 1]'(by omega), s.setStack s.stk ⟨s.sp.val - 1, by omega⟩)
  else (0x0000#16, s)

/-! ### Pixels (10_state.md R34) -/

/-- SCR[p] for p < 2048. -/
def Screen.pixel (scr : Screen) (p : Nat) : Bool := if h : p < 2048 then scr[p / 64].getLsbD (p % 64) else false

/-- SCR[p] <- SCR[p] ^ 1 for p < 2048. -/
def Screen.flip (scr : Screen) (p : Nat) : Screen :=
  if h : p < 2048 then scr.set (p / 64) (scr[p / 64] ^^^ (1#64 <<< (p % 64))) else scr

/-- The screen with every pixel 0. -/
def Screen.clear : Screen := Vector.replicate 32 0#64

/-! ### Unknown words (30_encoding.md R99) -/

/-- ExecuteUnknown(w): no state change. The fetch has already advanced pc. -/
def execUnknown (s : State) : Result := .next s

end Sys2Proof.Machine
end

