-- ==== Sys2Proof/Machine/Operands.lean ====
section
/-! DEFINITION. The operand forms of the instructions: immediates, the skip, the register block V0..Vx, the key named
by a register, the digits of a byte. -/

namespace Sys2Proof.Machine

/-- zext_16(nnn) (30_encoding.md R93) -/
def zextAddr (nnn : Addr) : Word := nnn.setWidth 16

/-- zext_16(b) (00_scope.md R11) -/
def zextByte (b : Byte) : Word := b.setWidth 16

/-- V0, the implicit operand of Bnnn (40_control_flow.md R124). -/
def State.v0 (s : State) : Byte := s.reg 0

/-- Skip() (42_skips.md R160): pc <- (pc + 2) mod 2^16. -/
def State.skip (s : State) : State := s.setPc (s.pc + 2#16)

/-- Skip() if the condition holds. -/
def State.skipIf (s : State) (c : Bool) : State := if c then s.skip else s

/-- V0, .., Vx in ascending order: the sources of Fx55 (44_index_memory.md R204). -/
def State.regBlock (s : State) (x : Reg) : List Byte := s.v.toList.take (x.val + 1)

/-- The registers with V[k], V[k+1], .. replaced by the bytes, ascending: the destinations of Fx65 (R205). -/
def loadBlock : Nat → List Byte → Vector Byte 16 → Vector Byte 16
  | _, [], v => v
  | k, b :: bs, v => loadBlock (k + 1) bs (v.setIfInBounds k b)

/-- I <- (I + x + 1) mod 2^16: the advance of Fx55 and Fx65 (R204, R205). -/
def State.advanceIndex (s : State) (x : Reg) : State := s.setIndex (s.index + BitVec.ofNat 16 (x.val + 1))

/-- Is the key named by a byte pressed? `none` when the byte is above 0xF and names no key (45_keypad_timers.md R220). -/
def State.keyNamed (s : State) (k : Byte) : Option Bool :=
  if h : k.toNat < 16 then some s.key[k.toNat] else none

/-- `found` after the scan of keys 0, 1, .., n-1, where the last match overwrites (R223). -/
def scanKeys (key : Vector Bool 16) : (n : Nat) → n ≤ 16 → Option (Fin 16)
  | 0, _ => none
  | n + 1, h => if key[n] then some ⟨n, by omega⟩ else scanKeys key n (by omega)

/-- `found` after the whole scan: the highest-indexed pressed key. -/
def State.foundKey (s : State) : Option (Fin 16) := scanKeys s.key 16 (Nat.le_refl 16)

/-- The hundreds, tens and units of a byte (R203). -/
def bcdDigits (b : Byte) : List Byte := [b / 100#8, b / 10#8 % 10#8, b % 10#8]

/-- The address of the glyph for a digit, at full width (R202, D11). -/
def glyphAddress (digit : Byte) : Word := zextByte digit * 5#16

end Sys2Proof.Machine
end

