-- ==== Sys2Proof/Machine/Flags.lean ====
section
/-! DEFINITION. The flag register VF and every flag the spec gives (10_state.md R22, 43_alu.md R170, R171,
41_display.md R143): the only flags are the carry, NOT borrow, the bit shifted out and the collision. -/

namespace Sys2Proof.Machine

/-- VF, register 0xF (R22). -/
def flagReg : Reg := 15

/-- A flag as VF holds it: 0 or 1. -/
def flagByte (f : Bool) : Byte := if f then 0x01#8 else 0x00#8

/-- Carry of V[x] + V[y]: the exact sum is above 255 (R178). -/
def carry (a b : Byte) : Bool := decide (255 < a.toNat + b.toNat)

/-- NOT borrow of d - s: d >= s (R179, R181). -/
def notBorrow (d s : Byte) : Bool := decide (s.toNat ≤ d.toNat)

/-- The bit a right shift by one shifts out (R180). -/
def outRight (b : Byte) : Bool := b.getLsbD 0

/-- The bit a left shift by one shifts out (R182). -/
def outLeft (b : Byte) : Bool := b.getLsbD 7

/-- VF <- the flag. -/
def State.setFlag (s : State) (f : Bool) : State := s.setReg flagReg (flagByte f)

/-- V[x] <- result, then VF <- flag: 8xy4, 8xy5, 8xy7 under either VF_ORDER (R171). -/
def State.resultThenFlag (s : State) (x : Reg) (result : Byte) (f : Bool) : State := (s.setReg x result).setFlag f

/-- A shift of V[x] in place under VF_ORDER (R171): `text_order` writes VF and then shifts what V[x] holds at that
point; `flag_last` shifts the old value and writes VF last. The two differ only when x = F. -/
def State.shiftWithFlag (s : State) (x : Reg) (shifted : Byte → Byte) (f : Bool) : State :=
  match s.config.vfOrder with
  | .textOrder => (s.setFlag f).setReg x (shifted ((s.setFlag f).reg x))
  | .flagLast => s.resultThenFlag x (shifted (s.reg x)) f

end Sys2Proof.Machine
end

