-- ==== Sys2Proof/Machine/Alu.lean ====
section
/-! DEFINITION. Register loads, the ALU and the random load (43_alu.md). Arithmetic on `Byte` wraps modulo 256 (R170). -/

namespace Sys2Proof.Machine

/-- 6xkk (R172) -/
def execLdImm (x : Reg) (kk : Byte) (s : State) : Result := .next (s.setReg x kk)

/-- 7xkk (R173): no flag. -/
def execAddImm (x : Reg) (kk : Byte) (s : State) : Result := .next (s.setReg x (s.reg x + kk))

/-- 8xy0 (R174) -/
def execLdReg (x y : Reg) (s : State) : Result := .next (s.setReg x (s.reg y))

/-- 8xy1 (R175): VF is not reset (D2). -/
def execOrReg (x y : Reg) (s : State) : Result := .next (s.setReg x (s.reg x ||| s.reg y))

/-- 8xy2 (R176): VF is not reset (D2). -/
def execAndReg (x y : Reg) (s : State) : Result := .next (s.setReg x (s.reg x &&& s.reg y))

/-- 8xy3 (R177): VF is not reset (D2). -/
def execXorReg (x y : Reg) (s : State) : Result := .next (s.setReg x (s.reg x ^^^ s.reg y))

/-- 8xy4 (R178) -/
def execAddReg (x y : Reg) (s : State) : Result :=
  .next (s.resultThenFlag x (s.reg x + s.reg y) (carry (s.reg x) (s.reg y)))

/-- 8xy5 (R179) -/
def execSub (x y : Reg) (s : State) : Result :=
  .next (s.resultThenFlag x (s.reg x - s.reg y) (notBorrow (s.reg x) (s.reg y)))

/-- 8xy6 (R180): y is not read (R98). -/
def execShr (x _y : Reg) (s : State) : Result :=
  .next (s.shiftWithFlag x (fun b => b >>> 1) (outRight (s.reg x)))

/-- 8xy7 (R181) -/
def execSubn (x y : Reg) (s : State) : Result :=
  .next (s.resultThenFlag x (s.reg y - s.reg x) (notBorrow (s.reg y) (s.reg x)))

/-- 8xyE (R182): y is not read (R98). -/
def execShl (x _y : Reg) (s : State) : Result :=
  .next (s.shiftWithFlag x (fun b => b <<< 1) (outLeft (s.reg x)))

/-- Cxkk (R183): the draw is the free value at the state's draw count, which then advances, so each execution of a run
has a fresh draw. That two runs which agree in the draw count draw equal bytes is the model's: the spec leaves
reproducibility open (91_not_in_source.md N11). DESIGN CHOICE, unsafe for a claim that compares the draws of two runs:
notes/assumptions/4.md. -/
def execRnd (x : Reg) (kk : Byte) (s : State) : Result :=
  .next ((s.setReg x (Config.rand8 s.randCount &&& kk)).setRandCount (s.randCount + 1))

end Sys2Proof.Machine
end

