-- ==== Sys2Proof/Machine/ControlFlow.lean ====
section
/-! DEFINITION. Control flow (40_control_flow.md). In every meaning pc already holds a + 2, and no transfer has a delay
slot (R125). -/

namespace Sys2Proof.Machine

/-- 0000 (R120) -/
def execNop (s : State) : Result := .next s

/-- 00EE (R121): pc <- Pop(), which is 0 on an empty stack. -/
def execRet (s : State) : Result := .next (s.pop.2.setPc s.pop.1)

/-- 1nnn (R122) -/
def execJp (nnn : Addr) (s : State) : Result := .next (s.setPc (zextAddr nnn))

/-- 2nnn (R123): pushes the address of the next instruction; on a full stack the call is dropped and pc stays a + 2
(D19). -/
def execCall (nnn : Addr) (s : State) : Result :=
  match s.push s.pc with
  | some t => .next (t.setPc (zextAddr nnn))
  | none => .next s

/-- Bnnn (R124) -/
def execJpV0 (nnn : Addr) (s : State) : Result := .next (s.setPc (zextAddr nnn + zextByte s.v0))

end Sys2Proof.Machine
end

