-- ==== Sys2Proof/Machine/Display.lean ====
section
/-! DEFINITION. Display (41_display.md): 00E0 and Dxyn. -/

namespace Sys2Proof.Machine

/-- 00E0 (R140) -/
def execCls (s : State) : Result := .next (s.setScr Screen.clear)

/-- The target pixel of column c of sprite row r, in exact arithmetic and then modulo 2048 (R142, D22). -/
def pixelIndex (xc yc : Byte) (r c : Nat) : Nat := (xc.toNat + c + (yc.toNat + r) * 64) % 2048

/-- The bit of a sprite byte that column c draws: bit 7 - c, so the most significant bit is leftmost (R142, D14). -/
def spriteBit (b : Byte) (c : Nat) : Bool := b.getLsbD (7 - c)

/-- One set bit flips its pixel, and the collision flag is set if the pixel was 1; a clear bit does nothing (R142). -/
def drawBit (d : Screen × Bool) (p : Nat) (bit : Bool) : Screen × Bool :=
  if bit then (Screen.flip d.1 p, d.2 || Screen.pixel d.1 p) else d

/-- The eight columns of sprite row r. -/
def drawRow (xc yc : Byte) (r : Nat) (b : Byte) (d : Screen × Bool) : Screen × Bool :=
  (List.range 8).foldl (fun d c => drawBit d (pixelIndex xc yc r c) (spriteBit b c)) d

/-- The sprite's rows from row r on, ascending. -/
def drawRows (xc yc : Byte) : Nat → List Byte → Screen × Bool → Screen × Bool
  | _, [], d => d
  | r, b :: bs, d => drawRows xc yc (r + 1) bs (drawRow xc yc r b d)

/-- Draw(xc, yc, n) on the sprite bytes read from I (R142): the screen and the collision flag, which starts at 0. -/
def drawSprite (xc yc : Byte) (sprite : List Byte) (scr : Screen) : Screen × Bool :=
  drawRows xc yc 0 sprite (scr, false)

/-- Dxyn (R141). The coordinates are read before VF is written (D3); the sprite bytes are read first, so that a fault
leaves nothing drawn (R244). -/
def execDrw (x y : Reg) (n : RowCount) (s : State) : Result :=
  match readBytes s s.index.toNat n.val with
  | .error addr => raiseDataRange (.drw x y n) addr s
  | .ok sprite =>
    .next ((s.setScr (drawSprite (s.reg x) (s.reg y) sprite s.scr).1).setFlag
      (drawSprite (s.reg x) (s.reg y) sprite s.scr).2)

end Sys2Proof.Machine
end

