-- ==== Sys2Proof/Machine/IndexMemory.lean ====
section
/-! DEFINITION. The index register and the memory block (44_index_memory.md). Addresses I + k are exact numbers, never
reduced (R62). -/

namespace Sys2Proof.Machine

/-- Annn (R200) -/
def execLdI (nnn : Addr) (s : State) : Result := .next (s.setIndex (zextAddr nnn))

/-- Fx1E (R201): modulo 2^16, no flag (D9). -/
def execAddI (x : Reg) (s : State) : Result := .next (s.setIndex (s.index + zextByte (s.reg x)))

/-- Fx29 (R202) -/
def execLdF (x : Reg) (s : State) : Result := .next (s.setIndex (glyphAddress (s.reg x)))

/-- Fx33 (R203): I is not changed (D2). -/
def execLdB (x : Reg) (s : State) : Result :=
  match writeBytes s.config.glyphs s.mem s.index.toNat (bcdDigits (s.reg x)) with
  | .error addr => raiseDataRange (.ldB x) addr s
  | .ok m => .next (s.setMem m)

/-- Fx55 (R204) -/
def execLdMemStore (x : Reg) (s : State) : Result :=
  match writeBytes s.config.glyphs s.mem s.index.toNat (s.regBlock x) with
  | .error addr => raiseDataRange (.ldMemStore x) addr s
  | .ok m => .next ((s.setMem m).advanceIndex x)

/-- Fx65 (R205) -/
def execLdMemLoad (x : Reg) (s : State) : Result :=
  match readBytes s s.index.toNat (x.val + 1) with
  | .error addr => raiseDataRange (.ldMemLoad x) addr s
  | .ok bs => .next ((s.setV (loadBlock 0 bs s.v)).advanceIndex x)

end Sys2Proof.Machine
end

