-- ==== Sys2Proof/Machine/KeypadTimers.lean ====
section
/-! DEFINITION. Keypad and timers (45_keypad_timers.md). -/

namespace Sys2Proof.Machine

/-- Ex9E (R220) -/
def execSkp (x : Reg) (s : State) : Result :=
  match s.keyNamed (s.reg x) with
  | none => raiseKeyRange (.skp x) (s.reg x) s
  | some pressed => .next (s.skipIf pressed)

/-- ExA1 (R221) -/
def execSknp (x : Reg) (s : State) : Result :=
  match s.keyNamed (s.reg x) with
  | none => raiseKeyRange (.sknp x) (s.reg x) s
  | some pressed => .next (s.skipIf (!pressed))

/-- Fx07 (R222) -/
def execLdVDt (x : Reg) (s : State) : Result := .next (s.setReg x s.dt)

/-- Fx0A (R223): with no key pressed pc steps back to a, so the next step runs the word at a again. -/
def execLdVK (x : Reg) (s : State) : Result :=
  match s.foundKey with
  | some k => .next (s.setReg x (BitVec.ofNat 8 k.val))
  | none => .next (s.setPc (s.pc - 2#16))

/-- Fx15 (R224) -/
def execLdDtV (x : Reg) (s : State) : Result := .next (s.setDt (s.reg x))

/-- Fx18 (R225) -/
def execLdStV (x : Reg) (s : State) : Result := .next (s.setSt (s.reg x))

end Sys2Proof.Machine
end

