-- ==== Sys2Proof/Machine/Skips.lean ====
section
/-! DEFINITION. The conditional skips on registers (42_skips.md). -/

namespace Sys2Proof.Machine

/-- 3xkk (R161) -/
def execSeImm (x : Reg) (kk : Byte) (s : State) : Result := .next (s.skipIf (s.reg x == kk))

/-- 4xkk (R162) -/
def execSneImm (x : Reg) (kk : Byte) (s : State) : Result := .next (s.skipIf (s.reg x != kk))

/-- 5xy0 (R163) -/
def execSeReg (x y : Reg) (s : State) : Result := .next (s.skipIf (s.reg x == s.reg y))

/-- 9xy0 (R164) -/
def execSneReg (x y : Reg) (s : State) : Result := .next (s.skipIf (s.reg x != s.reg y))

end Sys2Proof.Machine
end

