-- ==== Sys2Proof/Machine/Step.lean ====
section
/-! DEFINITION. One STEP (30_encoding.md R91): fetch, advance pc, decode, execute. It only calls the shared operations. -/

namespace Sys2Proof.Machine

/-- Step(). In the faulted state nothing happens (60_exceptions.md R245). FetchRange is checked first, and no
instruction is decoded after it (R246). A word that matches no row is a no-op (R99). -/
def step (s : State) : Host.Outcome State Fault Refusal :=
  match s.fault with
  | some _ => .next s
  | none =>
    match fetchWord s with
    | .error a => raiseFetchRange a s
    | .ok w =>
      match decodeWord w with
      | .ok i => exec i s.advancePc
      | .error _ => execUnknown s.advancePc

/-- s with the instruction word w (of which the low nbits are given) stored at pc, where step fetches it: bits 15:8 at
pc, bits 7:0 at pc + 1. With pc > 0xFFE there is nowhere to fetch from, and s is unchanged. -/
def State.withFetchWord (s : State) (nbits w : Nat) : State :=
  let word : Word := BitVec.ofNat 16 (w % 2 ^ nbits)
  match writeBytes s.config.glyphs s.mem s.pc.toNat [firstByte word, secondByte word] with
  | .ok m => s.setMem m
  | .error _ => s

end Sys2Proof.Machine
end

