-- ==== Sys2Proof/Machine/HostInterface.lean ====
section
/-! DEFINITION. The host interface (60_exceptions.md R250 to R258): the nine atomic operations by which the driver
reaches the core, between steps and in the faulted state too (R245). -/

namespace Sys2Proof.Machine

/-- One host operation (R250). -/
inductive HostOp where
  | load (bytes : List Byte)
  | step
  | tick
  | readDisplay
  | readKeypad
  | readSoundTimer
  | setKey (k : Nat)
  | clearKeys
  | readFault
  deriving DecidableEq, Repr

/-- What an operation gives back to the host. -/
inductive HostReply where
  /-- LOAD, STEP (R253), TICK, SET_KEY, CLEAR_KEYS -/
  | nothing
  /-- READ_DISPLAY: SCR[0..2047] in linear order -/
  | display (pixels : List (BitVec 1))
  /-- READ_KEYPAD: KEY[0..15] -/
  | keypad (keys : Vector Bool 16)
  /-- READ_SOUND_TIMER: ST -/
  | soundTimer (st : Byte)
  /-- READ_FAULT: FAULT -/
  | fault (f : Option FaultRecord)
  deriving DecidableEq, Repr

/-- The most bytes a LOAD may have (R7 MAX_LOAD, R251). -/
def maxLoad : Nat := 3584

/-- The preconditions of the operations: the length of a LOAD (R251) and the range of a key (R255). -/
def HostOp.wf : HostOp → Bool
  | .load bytes => decide (bytes.length ≤ maxLoad)
  | .setKey k => decide (k < 16)
  | .step | .tick | .readDisplay | .readKeypad | .readSoundTimer | .clearKeys | .readFault => true

/-- LOAD(bytes) (R251): the bytes are written from the boot offset on and nothing else changes; a longer program than
fits is refused. -/
def hostLoad (bytes : List Byte) (s : State) : Result :=
  if bytes.length ≤ maxLoad then
    match writeBytes s.config.glyphs s.mem bootOffset.toNat bytes with
    | .ok m => .next (s.setMem m)
    | .error _ => .refused (.loadTooLong bytes.length)
  else .refused (.loadTooLong bytes.length)

/-- A timer after one TICK: down by one, stopping at 0 (R252). -/
def tickTimer (b : Byte) : Byte := if b = 0x00#8 then 0x00#8 else b - 1#8

/-- TICK (R252) -/
def hostTick (s : State) : Result := .next ((s.setDt (tickTimer s.dt)).setSt (tickTimer s.st))

/-- SET_KEY(k) (R255) -/
def hostSetKey (k : Nat) (s : State) : Result :=
  if h : k < 16 then .next (s.setKey (s.key.set k true)) else .refused (.keyOutOfRange k)

/-- CLEAR_KEYS (R256) -/
def hostClearKeys (s : State) : Result := .next (s.setKey (Vector.replicate 16 false))

/-- The pixels in linear order (R254). -/
def State.display (s : State) : List (BitVec 1) := (List.range 2048).map (fun p => BitVec.ofBool (Screen.pixel s.scr p))

/-- What one operation does to the state. -/
def hostOp (op : HostOp) (s : State) : Result :=
  match op with
  | .load bytes => hostLoad bytes s
  | .step => step s
  | .tick => hostTick s
  | .readDisplay => .next s
  | .readKeypad => .next s
  | .readSoundTimer => .next s
  | .setKey k => hostSetKey k s
  | .clearKeys => hostClearKeys s
  | .readFault => .next s

/-- What one operation gives back (R253, R254, R257). -/
def hostReply (op : HostOp) (s : State) : HostReply :=
  match op with
  | .load _ | .step | .tick | .setKey _ | .clearKeys => .nothing
  | .readDisplay => .display s.display
  | .readKeypad => .keypad s.key
  | .readSoundTimer => .soundTimer s.st
  | .readFault => .fault s.fault

/-- The state after one operation: a refused operation changes no state (R251, R255). -/
def afterOp (op : HostOp) (s : State) : State :=
  match hostOp op s with
  | .next t => t
  | .fault _ => s
  | .refused _ => s

/-- A run: a finite sequence of host operations (R258, R264). -/
def runOps : List HostOp → State → State
  | [], s => s
  | op :: ops, s => runOps ops (afterOp op s)

end Sys2Proof.Machine
end

