-- ==== Sys2Proof/Safety.lean ====
section
/-! DEFINITION. The terms claims are stated in: reset states, runs, faulted states, the frame of an instruction, and the
invariant of the machine. -/

namespace Sys2Proof.Machine

/-! ### Reset and runs -/

/-- The states the machine with these parameters may have after reset, under each RESET_POLICY (10_state.md R40).
`zero` is one state. Under `arbitrary` pc, SP, FAULT and the glyph table are as the table says and all else is free;
the draw count is the model's own. -/
def IsReset (policy : ResetPolicy) (config : Config) (s : State) : Prop :=
  match policy with
  | .zero => s = State.resetOf config
  | .arbitrary =>
    s.config = config ∧ s.pc = 0x200#16 ∧ s.sp = 0 ∧ s.fault = none ∧ Memory.wf config.glyphs s.mem ∧
      ∀ a, (h : a < 80) → s.byteAt a = config.glyphs[a]

/-- The states some run from reset reaches (60_exceptions.md R258, R264). -/
inductive Reachable (policy : ResetPolicy) (config : Config) : State → Prop where
  | reset (s : State) : IsReset policy config s → Reachable policy config s
  | op (o : HostOp) (s : State) : Reachable policy config s → Reachable policy config (afterOp o s)

/-- The run has faulted (R264): such a state is never a successful end. -/
def State.faulted (s : State) : Bool := s.fault.isSome

/-! ### Frames -/

/-- The parts of the state other than the general registers and the parameters. -/
inductive Part where
  | index | pc | stack | dt | st | mem | scr | key | fault | rand
  deriving DecidableEq, Repr

/-- From s to t nothing changed but the named registers and parts. Memory is compared byte by byte, as it is read. -/
structure Frame (regs : List Reg) (parts : List Part) (s t : State) : Prop where
  reg : ∀ r, r ∉ regs → t.reg r = s.reg r
  index : Part.index ∉ parts → t.index = s.index
  pc : Part.pc ∉ parts → t.pc = s.pc
  stack : Part.stack ∉ parts → t.stk = s.stk ∧ t.sp = s.sp
  dt : Part.dt ∉ parts → t.dt = s.dt
  st : Part.st ∉ parts → t.st = s.st
  mem : Part.mem ∉ parts → ∀ a, t.byteAt a = s.byteAt a
  scr : Part.scr ∉ parts → t.scr = s.scr
  key : Part.key ∉ parts → t.key = s.key
  fault : Part.fault ∉ parts → t.fault = s.fault
  rand : Part.rand ∉ parts → t.randCount = s.randCount
  config : t.config = s.config

/-- Every byte outside the n bytes from address a on reads as before. -/
def StoresOnly (a n : Nat) (s t : State) : Prop := ∀ b, ¬ (a ≤ b ∧ b < a + n) → t.byteAt b = s.byteAt b

/-- Fault entry as an instruction's meaning sees it (60_exceptions.md R244): FAULT records the cause, pc is back at the
address the instruction was fetched from, and nothing else changed. -/
def TookFault (record : FaultRecord) (s t : State) : Prop :=
  t.fault = some record ∧ t.pc = s.pc - 2#16 ∧ Frame [] [.pc, .fault] s t

/-- `addr` is the first address of lo, lo+1, .., lo+n-1 that is above 0xFFF (R246). -/
def FirstOutOfRange (lo n addr : Nat) : Prop :=
  lo ≤ addr ∧ addr < lo + n ∧ 0xFFF < addr ∧ ∀ b, lo ≤ b → b < addr → b ≤ 0xFFF

/-- The sprite that Dxyn draws in s sets pixel p: some bit of it is 1 and falls on p (41_display.md R142). -/
def SpriteCovers (s : State) (x y : Reg) (n : RowCount) (p : Nat) : Prop :=
  ∃ r c, r < n.val ∧ c < 8 ∧ (s.byteAt (s.index.toNat + r)).getLsbD (7 - c) = true ∧
    p = ((s.reg x).toNat + c + ((s.reg y).toNat + r) * 64) % 2048

/-! ### The invariant -/

/-- What FAULT records agrees with its cause (R241, R243, R244): the address recorded is pc, and the value that was
out of range is out of range. -/
def FaultRecord.agrees (pc : Word) : FaultRecord → Prop
  | .fetchRange a => a = pc ∧ 0xFFE < a.toNat
  | .dataRange a _ addr => a = pc ∧ a.toNat ≤ 0xFFE ∧ 0xFFF < addr
  | .keyRange a _ key => a = pc ∧ a.toNat ≤ 0xFFE ∧ 0xF < key.toNat

/-- The invariant of the machine. It holds at reset and every operation keeps it. -/
structure Inv (s : State) : Prop where
  /-- Memory is in its one canonical form and lists only addresses 0x000..0xFFF (R60). -/
  memCanonical : Memory.wf s.config.glyphs s.mem
  /-- No run takes pc above 0x10FE (10_state.md R27). -/
  pcBound : s.pc.toNat ≤ 0x10FE
  /-- An entry in use is an address after a call, so it is at most 0x1000 (R27, R29). -/
  stackBound : ∀ j : Fin 16, j.val < s.sp.val → s.stk[j.val].toNat ≤ 0x1000
  /-- FAULT is NONE or records a cause that agrees with the state. -/
  faultAgrees : ∀ record, s.fault = some record → record.agrees s.pc

end Sys2Proof.Machine
end

