-- ==== Sys2Proof/WellFormed.lean ====
section
/-! DEFINITION. Which operands fit their fields (30_encoding.md R92, R93). The operand TYPES of Instr already hold
every bound, so a term of Instr cannot be ill formed (Laws/WellFormed.lean proves it); the checks are written on plain
numbers, so that each can be seen to refuse a number its field cannot hold. -/

namespace Sys2Proof

/-- A register field (x or y) is 4 bits wide. -/
def regOk (x : Nat) : Bool := decide (x < 16)

/-- The byte immediate kk is 8 bits wide. -/
def byteOk (kk : Nat) : Bool := decide (kk < 256)

/-- The address immediate nnn is 12 bits wide. -/
def addrOk (nnn : Nat) : Bool := decide (nnn < 4096)

/-- The row count n of Dxyn is 4 bits wide. -/
def rowsOk (n : Nat) : Bool := decide (n < 16)

/-- Every operand of the instruction fits its field. -/
def Instr.wf : Instr → Bool
  | .nop | .cls | .ret => true
  | .jp nnn | .call nnn | .ldI nnn | .jpV0 nnn => addrOk nnn.toNat
  | .seImm x kk | .sneImm x kk | .ldImm x kk | .addImm x kk | .rnd x kk => regOk x.val && byteOk kk.toNat
  | .seReg x y | .sneReg x y | .ldReg x y | .orReg x y | .andReg x y | .xorReg x y | .addReg x y
  | .sub x y | .shr x y | .subn x y | .shl x y => regOk x.val && regOk y.val
  | .drw x y n => regOk x.val && regOk y.val && rowsOk n.val
  | .skp x | .sknp x | .ldVDt x | .ldVK x | .ldDtV x | .ldStV x | .addI x | .ldF x | .ldB x
  | .ldMemStore x | .ldMemLoad x => regOk x.val

end Sys2Proof
end

