-- ==== Sys2Proof/Certificates/Slice0/Obligations.lean ====
section
/-! DEFINITION. The statements for the provers. A statement about one instruction says which words decode to it, that it
completes, what it writes, and its frame; the words are written as numbers from the spec's encodings. -/

open Sys2Proof Sys2Proof.Machine

/-! ### Control flow (40_control_flow.md) -/

/-- R120. One step at a zero word only advances pc by 2. -/
def Obligations.NopOnlyAdvancesPc : Prop :=
  decodeWord 0x0000#16 = .ok .nop ∧
  (∀ s : State, exec .nop s = .next s) ∧
  ∀ s : State, s.fault = none → s.pc.toNat ≤ 0xFFE → s.byteAt s.pc.toNat = 0x00#8 →
    s.byteAt (s.pc.toNat + 1) = 0x00#8 → ∃ t, step s = .next t ∧ t.pc = s.pc + 2#16 ∧ Frame [] [.pc] s t

/-- 40_control_flow.md RET. That STK keeps its values, the popped entry among them, and that the top is STK[SP-1] is the
stack layout D18 (the spec's own decision, log 16). -/
def Obligations.RetPopsReturnAddress : Prop :=
  decodeWord 0x00EE#16 = .ok .ret ∧
  ∀ s : State, ∃ t, exec .ret s = .next t ∧
    (∀ j : Fin 16, s.sp.val = j.val + 1 → t.pc = s.stk[j.val] ∧ t.sp.val = j.val) ∧
    (s.sp = 0 → t.pc = 0x0000#16 ∧ t.sp = 0) ∧
    t.stk = s.stk ∧ Frame [] [.pc, .stack] s t

/-- R122. -/
def Obligations.JpSetsPcToTarget : Prop :=
  ∀ (nnn : Addr) (s : State),
    decodeWord (BitVec.ofNat 16 (0x1000 + nnn.toNat)) = .ok (.jp nnn) ∧
    ∃ t, exec (.jp nnn) s = .next t ∧ t.pc.toNat = nnn.toNat ∧ Frame [] [.pc] s t

/-- 40_control_flow.md CALL, with the dropped call of 92_eei_decisions.md D19 (the spec's own decision, log 8) and the
stack layout of D18 (log 16). -/
def Obligations.CallPushesOrIsDropped : Prop :=
  ∀ (nnn : Addr) (s : State),
    decodeWord (BitVec.ofNat 16 (0x2000 + nnn.toNat)) = .ok (.call nnn) ∧
    ∃ t, exec (.call nnn) s = .next t ∧
      (∀ j : Fin 16, s.sp.val = j.val → t.pc.toNat = nnn.toNat ∧ t.sp.val = j.val + 1 ∧ t.stk[j.val] = s.pc ∧
        ∀ k : Fin 16, k ≠ j → t.stk[k.val] = s.stk[k.val]) ∧
      (s.sp = 16 → t = s) ∧
      Frame [] [.pc, .stack] s t

/-- R124. The sum is exact: it is at most 0x10FE. -/
def Obligations.JpV0AddsOffset : Prop :=
  ∀ (nnn : Addr) (s : State),
    decodeWord (BitVec.ofNat 16 (0xB000 + nnn.toNat)) = .ok (.jpV0 nnn) ∧
    ∃ t, exec (.jpV0 nnn) s = .next t ∧ t.pc.toNat = nnn.toNat + (s.reg 0).toNat ∧ Frame [] [.pc] s t

/-- A call followed by a return, with nothing between that moves the stack, comes back to the instruction after the
call with the same depth (40_control_flow.md; the stack layout is D18, the spec's own decision, log 16). -/
def Obligations.ReturnUndoesCall : Prop :=
  ∀ (nnn : Addr) (s : State), s.sp.val < 16 →
    ∃ t u, exec (.call nnn) s = .next t ∧ exec .ret t = .next u ∧ u.pc = s.pc ∧ u.sp = s.sp ∧
      (∀ j : Fin 16, j.val < s.sp.val → u.stk[j.val] = s.stk[j.val]) ∧ Frame [] [.stack] s u

/-! ### Display (41_display.md) -/

/-- 41_display.md CLS. That VF is unchanged is D2 (the spec's own decision, log 19). -/
def Obligations.ClsClearsEveryPixel : Prop :=
  decodeWord 0x00E0#16 = .ok .cls ∧
  ∀ s : State, ∃ t, exec .cls s = .next t ∧ (∀ p, p < 2048 → Screen.pixel t.scr p = false) ∧ Frame [] [.scr] s t

/-- 41_display.md DRW, the draw algorithm, the collision flag and the wrap. The coordinates are VF's old value when x or
y is F (D3, log 13), column c draws bit 7 - c (D14) and the index is computed exactly (D22, log 12): the spec's own
decisions. -/
def Obligations.DrwFlipsCoveredPixels : Prop :=
  ∀ (x y : Reg) (n : RowCount) (s : State),
    decodeWord (BitVec.ofNat 16 (0xD000 + x.val * 0x100 + y.val * 0x10 + n.val)) = .ok (.drw x y n) ∧
    ((∀ r, r < n.val → s.index.toNat + r ≤ 0xFFF) →
      ∃ t, exec (.drw x y n) s = .next t ∧
        (∀ p, p < 2048 → SpriteCovers s x y n p → Screen.pixel t.scr p = !Screen.pixel s.scr p) ∧
        (∀ p, p < 2048 → ¬ SpriteCovers s x y n p → Screen.pixel t.scr p = Screen.pixel s.scr p) ∧
        ((∃ p, SpriteCovers s x y n p ∧ Screen.pixel s.scr p = true) → t.reg 15 = 0x01#8) ∧
        ((¬ ∃ p, SpriteCovers s x y n p ∧ Screen.pixel s.scr p = true) → t.reg 15 = 0x00#8) ∧
        Frame [15] [.scr] s t)

/-- 95_test_vectors.md W5: a second draw of the same sprite at the same location restores the screen, and it collides
exactly when some pixel the sprite covers was clear before the first draw. Between the draws VF, which the first draw
wrote, may hold any byte, but for a draw that reads a coordinate from VF: there it is put back. D3, D14 and D22 are the
spec's own decisions (logs 12 and 13). -/
def Obligations.DrawingTwiceRestoresScreen : Prop :=
  ∀ (x y : Reg) (n : RowCount) (vf : Byte) (s : State), (x = 15 ∨ y = 15 → vf = s.reg 15) →
    (∀ r, r < n.val → s.index.toNat + r ≤ 0xFFF) →
    ∃ t u, exec (.drw x y n) s = .next t ∧ exec (.drw x y n) (t.setReg 15 vf) = .next u ∧ u.scr = s.scr ∧
      ((∃ p, SpriteCovers s x y n p ∧ Screen.pixel s.scr p = false) → u.reg 15 = 0x01#8) ∧
      ((¬ ∃ p, SpriteCovers s x y n p ∧ Screen.pixel s.scr p = false) → u.reg 15 = 0x00#8) ∧
      Frame [15] [] s u

/-! ### Skips (42_skips.md) -/

/-- R160, R161. -/
def Obligations.SeImmSkipsOnEqual : Prop :=
  ∀ (x : Reg) (kk : Byte) (s : State),
    decodeWord (BitVec.ofNat 16 (0x3000 + x.val * 0x100 + kk.toNat)) = .ok (.seImm x kk) ∧
    ∃ t, exec (.seImm x kk) s = .next t ∧ (s.reg x = kk → t.pc = s.pc + 2#16) ∧ (s.reg x ≠ kk → t.pc = s.pc) ∧
      Frame [] [.pc] s t

/-- R160, R162. -/
def Obligations.SneImmSkipsOnDifferent : Prop :=
  ∀ (x : Reg) (kk : Byte) (s : State),
    decodeWord (BitVec.ofNat 16 (0x4000 + x.val * 0x100 + kk.toNat)) = .ok (.sneImm x kk) ∧
    ∃ t, exec (.sneImm x kk) s = .next t ∧ (s.reg x ≠ kk → t.pc = s.pc + 2#16) ∧ (s.reg x = kk → t.pc = s.pc) ∧
      Frame [] [.pc] s t

/-- R160, R163. -/
def Obligations.SeRegSkipsOnEqual : Prop :=
  ∀ (x y : Reg) (s : State),
    decodeWord (BitVec.ofNat 16 (0x5000 + x.val * 0x100 + y.val * 0x10)) = .ok (.seReg x y) ∧
    ∃ t, exec (.seReg x y) s = .next t ∧ (s.reg x = s.reg y → t.pc = s.pc + 2#16) ∧
      (s.reg x ≠ s.reg y → t.pc = s.pc) ∧ Frame [] [.pc] s t

/-- R160, R164. -/
def Obligations.SneRegSkipsOnDifferent : Prop :=
  ∀ (x y : Reg) (s : State),
    decodeWord (BitVec.ofNat 16 (0x9000 + x.val * 0x100 + y.val * 0x10)) = .ok (.sneReg x y) ∧
    ∃ t, exec (.sneReg x y) s = .next t ∧ (s.reg x ≠ s.reg y → t.pc = s.pc + 2#16) ∧
      (s.reg x = s.reg y → t.pc = s.pc) ∧ Frame [] [.pc] s t

/-! ### Loads and ALU (43_alu.md) -/

/-- R172. -/
def Obligations.LdImmLoadsImmediate : Prop :=
  ∀ (x : Reg) (kk : Byte) (s : State),
    decodeWord (BitVec.ofNat 16 (0x6000 + x.val * 0x100 + kk.toNat)) = .ok (.ldImm x kk) ∧
    ∃ t, exec (.ldImm x kk) s = .next t ∧ t.reg x = kk ∧ Frame [x] [] s t

/-- R173. -/
def Obligations.AddImmWrapsWithoutFlag : Prop :=
  ∀ (x : Reg) (kk : Byte) (s : State),
    decodeWord (BitVec.ofNat 16 (0x7000 + x.val * 0x100 + kk.toNat)) = .ok (.addImm x kk) ∧
    ∃ t, exec (.addImm x kk) s = .next t ∧ (t.reg x).toNat = ((s.reg x).toNat + kk.toNat) % 256 ∧ Frame [x] [] s t

/-- R174. -/
def Obligations.LdRegCopiesRegister : Prop :=
  ∀ (x y : Reg) (s : State),
    decodeWord (BitVec.ofNat 16 (0x8000 + x.val * 0x100 + y.val * 0x10)) = .ok (.ldReg x y) ∧
    ∃ t, exec (.ldReg x y) s = .next t ∧ t.reg x = s.reg y ∧ Frame [x] [] s t

/-- 43_alu.md OR, AND, XOR, bit by bit. That VF is not reset is D2 (the spec's own decision, log 19). -/
def Obligations.BitwiseOperationsKeepVf : Prop :=
  ∀ (x y : Reg) (s : State),
    decodeWord (BitVec.ofNat 16 (0x8001 + x.val * 0x100 + y.val * 0x10)) = .ok (.orReg x y) ∧
    decodeWord (BitVec.ofNat 16 (0x8002 + x.val * 0x100 + y.val * 0x10)) = .ok (.andReg x y) ∧
    decodeWord (BitVec.ofNat 16 (0x8003 + x.val * 0x100 + y.val * 0x10)) = .ok (.xorReg x y) ∧
    (∃ t, exec (.orReg x y) s = .next t ∧ Frame [x] [] s t ∧
      ∀ j, (t.reg x).getLsbD j = ((s.reg x).getLsbD j || (s.reg y).getLsbD j)) ∧
    (∃ t, exec (.andReg x y) s = .next t ∧ Frame [x] [] s t ∧
      ∀ j, (t.reg x).getLsbD j = ((s.reg x).getLsbD j && (s.reg y).getLsbD j)) ∧
    (∃ t, exec (.xorReg x y) s = .next t ∧ Frame [x] [] s t ∧
      ∀ j, (t.reg x).getLsbD j = ((s.reg x).getLsbD j ^^ (s.reg y).getLsbD j))

/-- R178. With x = F the carry is what VF keeps. -/
def Obligations.AddRegSetsCarry : Prop :=
  ∀ (x y : Reg) (s : State),
    decodeWord (BitVec.ofNat 16 (0x8004 + x.val * 0x100 + y.val * 0x10)) = .ok (.addReg x y) ∧
    ∃ t, exec (.addReg x y) s = .next t ∧
      (x ≠ 15 → (t.reg x).toNat = ((s.reg x).toNat + (s.reg y).toNat) % 256) ∧
      (t.reg 15).toNat = ((s.reg x).toNat + (s.reg y).toNat) / 256 ∧ Frame [x, 15] [] s t

/-- R179. With x = F the flag is what VF keeps. -/
def Obligations.SubSetsNotBorrow : Prop :=
  ∀ (x y : Reg) (s : State),
    decodeWord (BitVec.ofNat 16 (0x8005 + x.val * 0x100 + y.val * 0x10)) = .ok (.sub x y) ∧
    ∃ t, exec (.sub x y) s = .next t ∧
      (x ≠ 15 → ((t.reg x).toNat : Int) = ((s.reg x).toNat - (s.reg y).toNat : Int) % 256) ∧
      ((s.reg y).toNat ≤ (s.reg x).toNat → t.reg 15 = 0x01#8) ∧
      ((s.reg x).toNat < (s.reg y).toNat → t.reg 15 = 0x00#8) ∧ Frame [x, 15] [] s t

/-- R181. With x = F the flag is what VF keeps. -/
def Obligations.SubnSetsNotBorrow : Prop :=
  ∀ (x y : Reg) (s : State),
    decodeWord (BitVec.ofNat 16 (0x8007 + x.val * 0x100 + y.val * 0x10)) = .ok (.subn x y) ∧
    ∃ t, exec (.subn x y) s = .next t ∧
      (x ≠ 15 → ((t.reg x).toNat : Int) = ((s.reg y).toNat - (s.reg x).toNat : Int) % 256) ∧
      ((s.reg x).toNat ≤ (s.reg y).toNat → t.reg 15 = 0x01#8) ∧
      ((s.reg y).toNat < (s.reg x).toNat → t.reg 15 = 0x00#8) ∧ Frame [x, 15] [] s t

/-- 43_alu.md SHR Vx, for every y (it is not read) and under both values of VF_ORDER (the spec's own decision D4, log 3).
With x = F, VF ends as 0 under text_order and as its old bit 0 under flag_last. -/
def Obligations.ShrShiftsInPlace : Prop :=
  ∀ (x y : Reg) (s : State),
    decodeWord (BitVec.ofNat 16 (0x8006 + x.val * 0x100 + y.val * 0x10)) = .ok (.shr x y) ∧
    ∃ t, exec (.shr x y) s = .next t ∧
      (x ≠ 15 → (t.reg x).toNat = (s.reg x).toNat / 2 ∧ (t.reg 15).toNat = (s.reg x).toNat % 2) ∧
      (x = 15 → s.config.vfOrder = .textOrder → t.reg 15 = 0x00#8) ∧
      (x = 15 → s.config.vfOrder = .flagLast → (t.reg 15).toNat = (s.reg 15).toNat % 2) ∧ Frame [x, 15] [] s t

/-- 43_alu.md SHL Vx, for every y (it is not read) and under both values of VF_ORDER (the spec's own decision D4, log 3).
With x = F, VF ends as twice its old bit 7 under text_order and as its old bit 7 under flag_last. -/
def Obligations.ShlShiftsInPlace : Prop :=
  ∀ (x y : Reg) (s : State),
    decodeWord (BitVec.ofNat 16 (0x800E + x.val * 0x100 + y.val * 0x10)) = .ok (.shl x y) ∧
    ∃ t, exec (.shl x y) s = .next t ∧
      (x ≠ 15 → (t.reg x).toNat = (s.reg x).toNat * 2 % 256 ∧ (t.reg 15).toNat = (s.reg x).toNat / 128) ∧
      (x = 15 → s.config.vfOrder = .textOrder → (t.reg 15).toNat = (s.reg 15).toNat / 128 * 2) ∧
      (x = 15 → s.config.vfOrder = .flagLast → (t.reg 15).toNat = (s.reg 15).toNat / 128) ∧ Frame [x, 15] [] s t

/-- 43_alu.md, operand and write order (the spec's own decision D4, log 3): VF_ORDER is seen only by the two shifts with
x = F. From two states that differ in VF_ORDER alone, every other instruction of the machine gives states that differ in
VF_ORDER alone; for Cxkk the draw is taken to be the same in both (the model's choice, log 4). -/
def Obligations.VfOrderSeenOnlyByShiftsOfVf : Prop :=
  ∀ (i : Instr) (s t : State) (order : VfOrder),
    (∀ y, i ≠ .shr 15 y) → (∀ y, i ≠ .shl 15 y) → exec i s = .next t →
    exec i { s with config := { s.config with vfOrder := order } } =
      .next { t with config := { t.config with vfOrder := order } }

/-- 43_alu.md RND. The draw is the free value of log 4 (D15), so the statement holds for every byte it may be; a bit that
is 0 in kk is 0 in the result. -/
def Obligations.RndMasksFreshDraw : Prop :=
  ∀ (x : Reg) (kk : Byte) (s : State),
    decodeWord (BitVec.ofNat 16 (0xC000 + x.val * 0x100 + kk.toNat)) = .ok (.rnd x kk) ∧
    ∃ t, exec (.rnd x kk) s = .next t ∧ t.reg x = (Config.rand8 s.randCount &&& kk) ∧
      (∀ j, kk.getLsbD j = false → (t.reg x).getLsbD j = false) ∧
      t.randCount = s.randCount + 1 ∧ Frame [x] [.rand] s t

/-! ### Index register and memory block (44_index_memory.md) -/

/-- R200. -/
def Obligations.LdILoadsAddress : Prop :=
  ∀ (nnn : Addr) (s : State),
    decodeWord (BitVec.ofNat 16 (0xA000 + nnn.toNat)) = .ok (.ldI nnn) ∧
    ∃ t, exec (.ldI nnn) s = .next t ∧ t.index.toNat = nnn.toNat ∧ Frame [] [.index] s t

/-- 44_index_memory.md ADD I Vx. The wrap modulo 2^16 is D9 (the spec's own decision, log 9). -/
def Obligations.AddIWrapsWithoutFlag : Prop :=
  ∀ (x : Reg) (s : State),
    decodeWord (BitVec.ofNat 16 (0xF01E + x.val * 0x100)) = .ok (.addI x) ∧
    ∃ t, exec (.addI x) s = .next t ∧ t.index.toNat = (s.index.toNat + (s.reg x).toNat) % 65536 ∧
      Frame [] [.index] s t

/-- 44_index_memory.md LD F Vx. The full-width product above 0xF is D11 (the spec's own decision, log 10). -/
def Obligations.LdFPointsAtGlyph : Prop :=
  ∀ (x : Reg) (s : State),
    decodeWord (BitVec.ofNat 16 (0xF029 + x.val * 0x100)) = .ok (.ldF x) ∧
    ∃ t, exec (.ldF x) s = .next t ∧ t.index.toNat = (s.reg x).toNat * 5 ∧ Frame [] [.index] s t

/-- 44_index_memory.md LD B Vx, where the three bytes are in range. That I is unchanged is D2 (log 19). -/
def Obligations.LdBStoresDecimalDigits : Prop :=
  ∀ (x : Reg) (s : State),
    decodeWord (BitVec.ofNat 16 (0xF033 + x.val * 0x100)) = .ok (.ldB x) ∧
    (s.index.toNat + 2 ≤ 0xFFF →
      ∃ t, exec (.ldB x) s = .next t ∧
        (t.byteAt s.index.toNat).toNat = (s.reg x).toNat / 100 ∧
        (t.byteAt (s.index.toNat + 1)).toNat = (s.reg x).toNat / 10 % 10 ∧
        (t.byteAt (s.index.toNat + 2)).toNat = (s.reg x).toNat % 10 ∧
        StoresOnly s.index.toNat 3 s t ∧ Frame [] [.mem] s t)

/-- 44_index_memory.md LD [I] Vx, where the x+1 bytes are in range. The wrap of I is D9 (log 9). -/
def Obligations.LdMemStoreStoresRegisters : Prop :=
  ∀ (x : Reg) (s : State),
    decodeWord (BitVec.ofNat 16 (0xF055 + x.val * 0x100)) = .ok (.ldMemStore x) ∧
    (s.index.toNat + x.val ≤ 0xFFF →
      ∃ t, exec (.ldMemStore x) s = .next t ∧
        (∀ k : Reg, k ≤ x → t.byteAt (s.index.toNat + k.val) = s.reg k) ∧
        StoresOnly s.index.toNat (x.val + 1) s t ∧
        t.index.toNat = (s.index.toNat + x.val + 1) % 65536 ∧ Frame [] [.mem, .index] s t)

/-- 44_index_memory.md LD Vx [I], where the x+1 bytes are in range. The wrap of I is D9 (log 9). -/
def Obligations.LdMemLoadLoadsRegisters : Prop :=
  ∀ (x : Reg) (s : State),
    decodeWord (BitVec.ofNat 16 (0xF065 + x.val * 0x100)) = .ok (.ldMemLoad x) ∧
    (s.index.toNat + x.val ≤ 0xFFF →
      ∃ t, exec (.ldMemLoad x) s = .next t ∧
        (∀ k : Reg, k ≤ x → t.reg k = s.byteAt (s.index.toNat + k.val)) ∧
        (∀ k : Reg, x < k → t.reg k = s.reg k) ∧
        t.index.toNat = (s.index.toNat + x.val + 1) % 65536 ∧
        Frame ((List.finRange 16).filter (fun k => decide (k ≤ x))) [.index] s t)

/-- Two neighbouring bytes stored by Fx55 are the word that the next fetch from there gives (20_memory.md R72, R286). -/
def Obligations.StoredBytesAreFetched : Prop :=
  ∀ (x j k : Reg) (s : State), j ≤ x → j.val = k.val + 1 → s.index.toNat + x.val ≤ 0xFFF →
    ∃ t, exec (.ldMemStore x) s = .next t ∧
      ∃ w, fetchWord { t with pc := s.index + BitVec.ofNat 16 k.val } = .ok w ∧
        w.toNat = (s.reg k).toNat * 256 + (s.reg j).toNat

/-- Storing V0..Vx and loading them back from the same address restores them: every register is as before. -/
def Obligations.LoadUndoesStore : Prop :=
  ∀ (x : Reg) (s : State), s.index.toNat + x.val ≤ 0xFFF →
    ∃ t u, exec (.ldMemStore x) s = .next t ∧ exec (.ldMemLoad x) { t with index := s.index } = .next u ∧
      u.v = s.v ∧ u.index = t.index ∧ Frame [] [.index, .mem] s u

/-! ### Keypad and timers (45_keypad_timers.md) -/

/-- 45_keypad_timers.md SKP and SKNP. The fault for a key number above 0xF is D7 and D8 (the spec's own decisions,
logs 5 and 7). -/
def Obligations.SkpAndSknpTestTheNamedKey : Prop :=
  ∀ (x : Reg) (s : State),
    decodeWord (BitVec.ofNat 16 (0xE09E + x.val * 0x100)) = .ok (.skp x) ∧
    decodeWord (BitVec.ofNat 16 (0xE0A1 + x.val * 0x100)) = .ok (.sknp x) ∧
    (∀ k : Fin 16, (s.reg x).toNat = k.val →
      (∃ t, exec (.skp x) s = .next t ∧ (s.key[k.val] = true → t.pc = s.pc + 2#16) ∧
        (s.key[k.val] = false → t.pc = s.pc) ∧ Frame [] [.pc] s t) ∧
      (∃ t, exec (.sknp x) s = .next t ∧ (s.key[k.val] = false → t.pc = s.pc + 2#16) ∧
        (s.key[k.val] = true → t.pc = s.pc) ∧ Frame [] [.pc] s t)) ∧
    (0xF < (s.reg x).toNat →
      (∃ t, exec (.skp x) s = .next t ∧
        TookFault (.keyRange (s.pc - 2#16) (BitVec.ofNat 16 (0xE09E + x.val * 0x100)) (s.reg x)) s t) ∧
      (∃ t, exec (.sknp x) s = .next t ∧
        TookFault (.keyRange (s.pc - 2#16) (BitVec.ofNat 16 (0xE0A1 + x.val * 0x100)) (s.reg x)) s t))

/-- R222. -/
def Obligations.LdVDtReadsDelayTimer : Prop :=
  ∀ (x : Reg) (s : State),
    decodeWord (BitVec.ofNat 16 (0xF007 + x.val * 0x100)) = .ok (.ldVDt x) ∧
    ∃ t, exec (.ldVDt x) s = .next t ∧ t.reg x = s.dt ∧ Frame [x] [] s t

/-- 45_keypad_timers.md LD Vx K: with a key pressed the highest one is stored; with none, pc steps back and the step
changes nothing else. That the key is detected by level and not consumed is D21 (the spec's own decision, log 11). -/
def Obligations.LdVKWaitsForHighestKey : Prop :=
  ∀ (x : Reg) (s : State),
    decodeWord (BitVec.ofNat 16 (0xF00A + x.val * 0x100)) = .ok (.ldVK x) ∧
    (∀ k : Fin 16, s.key[k.val] = true → (∀ j : Fin 16, k < j → s.key[j.val] = false) →
      ∃ t, exec (.ldVK x) s = .next t ∧ (t.reg x).toNat = k.val ∧ Frame [x] [] s t) ∧
    ((∀ j : Fin 16, s.key[j.val] = false) →
      ∃ t, exec (.ldVK x) s = .next t ∧ t.pc = s.pc - 2#16 ∧ Frame [] [.pc] s t)

/-- R224. -/
def Obligations.LdDtVSetsDelayTimer : Prop :=
  ∀ (x : Reg) (s : State),
    decodeWord (BitVec.ofNat 16 (0xF015 + x.val * 0x100)) = .ok (.ldDtV x) ∧
    ∃ t, exec (.ldDtV x) s = .next t ∧ t.dt = s.reg x ∧ Frame [] [.dt] s t

/-- R225. -/
def Obligations.LdStVSetsSoundTimer : Prop :=
  ∀ (x : Reg) (s : State),
    decodeWord (BitVec.ofNat 16 (0xF018 + x.val * 0x100)) = .ok (.ldStV x) ∧
    ∃ t, exec (.ldStV x) s = .next t ∧ t.st = s.reg x ∧ Frame [] [.st] s t

/-! ### Encoding (30_encoding.md) -/

/-- Every well-formed instruction's bytes decode to it, whatever follows them (R94, R95, R98). The y field of the shifts
is part of the instruction (log 22). -/
def Obligations.DecodeOfEncodeIsIdentity : Prop :=
  ∀ (i : Instr) (rest : List Byte), i.wf = true → decode (encodeBytes i ++ rest) = .ok (i, rest)

/-- A word that decodes is the encoding of what it decodes to: no bit of it is dropped. -/
def Obligations.EncodeOfDecodeIsIdentity : Prop :=
  ∀ (w : Word) (i : Instr), decodeWord w = .ok i → encode i = w

/-- R95, R96: the rows of the opcode table (its masks and match values) that a word belongs to are exactly the row of
the instruction it decodes to, and none when it is unknown. So no word belongs to two rows. -/
def Obligations.DecodeSelectsTheOneTableRow : Prop :=
  ∀ w : Word, (opcodeTable.filter (fun row => row.accepts w)).map (fun row => row.mnemonic) =
    match decodeWord w with
    | .ok i => [i.mnemonic]
    | .error _ => []

/-- A few words written out from the encodings of R95. -/
def Obligations.SampleWordsDecode : Prop :=
  decodeWord 0b0010001100000000#16 = .ok (.call 0x300#12) ∧
  decodeWord 0b1101000000010001#16 = .ok (.drw 0 1 1) ∧
  decodeWord 0b1000000100100101#16 = .ok (.sub 1 2) ∧
  decodeWord 0b1111001001100101#16 = .ok (.ldMemLoad 2) ∧
  decodeWord 0b1110010110100001#16 = .ok (.sknp 5) ∧
  decodeWord 0b0101000100100001#16 = .error (.unknownWord 0x5121#16)

/-! ### The step (30_encoding.md R91, 60_exceptions.md) -/

/-- 30_encoding.md, one STEP: the whole of Step(). The fetched word has the byte at pc in bits 15:8. What a fetch above
0xFFE does is D6 and D8, and that the faulted state stands still is D8 (the spec's own decisions, logs 5 and 6). -/
def Obligations.StepRunsTheDecodedInstruction : Prop :=
  ∀ s : State,
    (s.fault ≠ none → step s = .next s) ∧
    (s.fault = none → 0xFFE < s.pc.toNat →
      ∃ t, step s = .next t ∧ t.fault = some (.fetchRange s.pc) ∧ Frame [] [.fault] s t) ∧
    (∀ (w : Word) (i : Instr), s.fault = none → s.pc.toNat ≤ 0xFFE →
      w.toNat = (s.byteAt s.pc.toNat).toNat * 256 + (s.byteAt (s.pc.toNat + 1)).toNat → decodeWord w = .ok i →
      step s = exec i { s with pc := s.pc + 2#16 }) ∧
    (∀ (w : Word) (e : DecodeError), s.fault = none → s.pc.toNat ≤ 0xFFE →
      w.toNat = (s.byteAt s.pc.toNat).toNat * 256 + (s.byteAt (s.pc.toNat + 1)).toNat → decodeWord w = .error e →
      step s = .next { s with pc := s.pc + 2#16 })

/-- R99: a fetched word that matches no row of the opcode table is a no-op. -/
def Obligations.UnknownWordIsNoOp : Prop :=
  ∀ (s : State) (w : Word), s.fault = none → s.pc.toNat ≤ 0xFFE →
    w.toNat = (s.byteAt s.pc.toNat).toNat * 256 + (s.byteAt (s.pc.toNat + 1)).toNat →
    (∀ row ∈ opcodeTable, w &&& row.mask ≠ row.value) →
    ∃ t, step s = .next t ∧ t.pc = s.pc + 2#16 ∧ Frame [] [.pc] s t

/-- 60_exceptions.md, the end of a run: the core never stops by itself. That a fault is a state of the core, so that a
step answers a next state there too, is D8 (the spec's own decision, log 5). -/
def Obligations.StepAlwaysAnswersAState : Prop := ∀ s : State, ∃ t, step s = .next t

/-- The faulted state is sticky (60_exceptions.md R245; D8, the spec's own decision, log 5): STEP changes nothing, and no
host operation changes FAULT. -/
def Obligations.FaultedStateIsSticky : Prop :=
  ∀ (s : State), s.fault ≠ none →
    step s = .next s ∧ ∀ (op : HostOp), (afterOp op s).fault = s.fault ∧ (afterOp op s).pc = s.pc

/-- Fault entry is precise (60_exceptions.md R244; D8, the spec's own decision, log 5): a step that faults leaves
everything but FAULT as it was, pc and memory included. -/
def Obligations.FaultEntryIsPrecise : Prop :=
  ∀ s t : State, s.fault = none → step s = .next t → t.fault ≠ none → Frame [] [.fault] s t ∧ t.mem = s.mem

/-- An access above 0xFFF raises DataRange with the first such address, for each of the four instructions (R242, R246;
D5, the spec's own decision, log 6). -/
def Obligations.OutOfRangeAccessFaults : Prop :=
  ∀ (x y : Reg) (n : RowCount) (s : State) (addr : Nat),
    (FirstOutOfRange s.index.toNat n.val addr → ∃ t, exec (.drw x y n) s = .next t ∧
      TookFault (.dataRange (s.pc - 2#16) (BitVec.ofNat 16 (0xD000 + x.val * 0x100 + y.val * 0x10 + n.val)) addr) s t) ∧
    (FirstOutOfRange s.index.toNat 3 addr → ∃ t, exec (.ldB x) s = .next t ∧
      TookFault (.dataRange (s.pc - 2#16) (BitVec.ofNat 16 (0xF033 + x.val * 0x100)) addr) s t) ∧
    (FirstOutOfRange s.index.toNat (x.val + 1) addr → ∃ t, exec (.ldMemStore x) s = .next t ∧
      TookFault (.dataRange (s.pc - 2#16) (BitVec.ofNat 16 (0xF055 + x.val * 0x100)) addr) s t) ∧
    (FirstOutOfRange s.index.toNat (x.val + 1) addr → ∃ t, exec (.ldMemLoad x) s = .next t ∧
      TookFault (.dataRange (s.pc - 2#16) (BitVec.ofNat 16 (0xF065 + x.val * 0x100)) addr) s t)

/-- No other instruction raises a fault, and these raise no other (R242, R243, R246; D5, D7 and D8, the spec's own
decisions, logs 5 to 7). -/
def Obligations.OnlySixInstructionsFault : Prop :=
  ∀ (i : Instr) (s t : State), exec i s = .next t → t.fault ≠ s.fault →
    (∃ x y n addr, i = .drw x y n ∧ FirstOutOfRange s.index.toNat n.val addr ∧
      TookFault (.dataRange (s.pc - 2#16) (encode i) addr) s t) ∨
    (∃ x addr, i = .ldB x ∧ FirstOutOfRange s.index.toNat 3 addr ∧
      TookFault (.dataRange (s.pc - 2#16) (encode i) addr) s t) ∨
    (∃ x addr, (i = .ldMemStore x ∨ i = .ldMemLoad x) ∧ FirstOutOfRange s.index.toNat (x.val + 1) addr ∧
      TookFault (.dataRange (s.pc - 2#16) (encode i) addr) s t) ∨
    (∃ x, (i = .skp x ∨ i = .sknp x) ∧ 0xF < (s.reg x).toNat ∧
      TookFault (.keyRange (s.pc - 2#16) (encode i) (s.reg x)) s t)

/-! ### The whole machine -/

/-- Who writes what (10_state.md R25, R28, R29, R31, R34, R35, R37; 20_memory.md R60): each part of the state is changed
by the instructions the spec lists for it and by no other, and KEY and the parameters by none. That a row names every
write is D2 (the spec's own decision, log 19). -/
def Obligations.EachPartHasOnlyItsWriters : Prop :=
  ∀ (i : Instr) (s t : State), exec i s = .next t →
    (t.index = s.index ∨ (∃ nnn, i = .ldI nnn) ∨ (∃ x, i = .addI x) ∨ (∃ x, i = .ldF x) ∨ (∃ x, i = .ldMemStore x) ∨
      ∃ x, i = .ldMemLoad x) ∧
    (t.pc = s.pc ∨ i = .ret ∨ (∃ nnn, i = .jp nnn) ∨ (∃ nnn, i = .call nnn) ∨ (∃ nnn, i = .jpV0 nnn) ∨
      (t.pc = s.pc + 2#16 ∧ ((∃ x kk, i = .seImm x kk) ∨ (∃ x kk, i = .sneImm x kk) ∨ (∃ x y, i = .seReg x y) ∨
        (∃ x y, i = .sneReg x y) ∨ (∃ x, i = .skp x) ∨ ∃ x, i = .sknp x)) ∨
      (t.pc = s.pc - 2#16 ∧ ((∃ x, i = .ldVK x) ∨ t.fault ≠ none))) ∧
    ((t.stk = s.stk ∧ t.sp = s.sp) ∨ i = .ret ∨ ∃ nnn, i = .call nnn) ∧
    (t.dt = s.dt ∨ ∃ x, i = .ldDtV x) ∧
    (t.st = s.st ∨ ∃ x, i = .ldStV x) ∧
    (t.mem = s.mem ∨ (∃ x, i = .ldB x) ∨ ∃ x, i = .ldMemStore x) ∧
    (t.scr = s.scr ∨ i = .cls ∨ ∃ x y n, i = .drw x y n) ∧
    t.key = s.key ∧ t.config = s.config

/-- No instruction reads ST (10_state.md R31): two states that differ in ST alone behave alike; for Cxkk the draw is taken
to be the same in both (the model's choice, log 4). -/
def Obligations.SoundTimerIsNeverRead : Prop :=
  ∀ (i : Instr) (s t : State) (b : Byte), exec i s = .next t →
    exec i { s with st := b } = .next { t with st := if ∃ x, i = .ldStV x then t.st else b }

/-- 10_state.md R22: an instruction that is no arithmetic, shift or draw instruction with a flag, and whose x field does
not name VF, leaves VF unchanged. That a row names every write is D2 (the spec's own decision, log 19). -/
def Obligations.VfIsWrittenOnlyAsFlagOrByName : Prop :=
  ∀ (i : Instr) (s t : State), exec i s = .next t → t.reg 15 ≠ s.reg 15 →
    (∃ x y, i = .addReg x y ∨ i = .sub x y ∨ i = .shr x y ∨ i = .subn x y ∨ i = .shl x y) ∨
    (∃ x y n, i = .drw x y n) ∨
    (∃ kk, i = .ldImm 15 kk ∨ i = .addImm 15 kk ∨ i = .rnd 15 kk) ∨
    (∃ y, i = .ldReg 15 y ∨ i = .orReg 15 y ∨ i = .andReg 15 y ∨ i = .xorReg 15 y) ∨
    i = .ldVDt 15 ∨ i = .ldVK 15 ∨ i = .ldMemLoad 15

/-- Every reset state, under either RESET_POLICY (the spec's own decision D12, log 2) and for all parameters, meets the
invariant. -/
def Obligations.ResetMeetsInvariant : Prop :=
  ∀ (policy : ResetPolicy) (config : Config) (s : State), IsReset policy config s → Inv s

/-- A step keeps the invariant: memory stays canonical and inside 0x000..0xFFF, pc stays at or below 0x10FE (10_state.md
R27), every return address in use stays at or below 0x1000, and FAULT agrees with the state. The canonical form is the
model's (log 17); what FAULT records is D8 (the spec's own decision, log 5). -/
def Obligations.StepKeepsInvariant : Prop := ∀ s t : State, Inv s → step s = .next t → Inv t

/-- Every state that any run of host operations reaches from any reset state meets the invariant and has kept the
parameters it was created with. RESET_POLICY is D12 (the spec's own decision, log 2); the canonical form of
memory is the model's (log 17); what FAULT records is D8 (the spec's own decision, log 5). -/
def Obligations.ReachableStatesMeetInvariant : Prop :=
  ∀ (policy : ResetPolicy) (config : Config) (s : State), Reachable policy config s → Inv s ∧ s.config = config

/-- What the spec states of the reset state: pc, the empty stack, no fault, and the glyph table at 0x000..0x04F
(10_state.md R24, R33, R40); and, under RESET_POLICY = zero, the zeros of D12 (the spec's own decision, log 2). -/
def Obligations.ResetStateIsAsTabled : Prop :=
  ∀ (policy : ResetPolicy) (config : Config) (s : State), IsReset policy config s →
    s.pc.toNat = 512 ∧ s.sp.val = 0 ∧ s.fault = none ∧ s.config = config ∧
    (∀ a, (h : a < 80) → s.byteAt a = config.glyphs[a]) ∧
    (policy = .zero → (∀ r, s.reg r = 0x00#8) ∧ s.index = 0x0000#16 ∧ s.dt = 0x00#8 ∧ s.st = 0x00#8 ∧
      (∀ j : Fin 16, s.stk[j.val] = 0x0000#16) ∧ (∀ a, 80 ≤ a → s.byteAt a = 0x00#8) ∧
      (∀ p, Screen.pixel s.scr p = false) ∧ ∀ k : Fin 16, s.key[k.val] = false)

/-! ### Host operations (60_exceptions.md) -/

/-- LOAD (60_exceptions.md R251). That a longer program is refused is D16 (the spec's own decision, log 14). -/
def Obligations.LoadCopiesProgram : Prop :=
  ∀ (bytes : List Byte) (s : State),
    (bytes.length ≤ 3584 → ∃ t, hostOp (.load bytes) s = .next t ∧
      (∀ j, (h : j < bytes.length) → t.byteAt (0x200 + j) = bytes[j]) ∧
      StoresOnly 0x200 bytes.length s t ∧ Frame [] [.mem] s t) ∧
    (3584 < bytes.length → hostOp (.load bytes) s = .refused (.loadTooLong bytes.length) ∧ afterOp (.load bytes) s = s)

/-- R252. -/
def Obligations.TickDecrementsTimers : Prop :=
  ∀ s : State, ∃ t, hostOp .tick s = .next t ∧ t.dt.toNat = s.dt.toNat - 1 ∧ t.st.toNat = s.st.toNat - 1 ∧
    Frame [] [.dt, .st] s t

/-- SET_KEY and CLEAR_KEYS (60_exceptions.md R255, R256). The refusal of a key above 15 is D24 (the spec's own decision,
log 14). -/
def Obligations.KeyOperationsSetAndClear : Prop :=
  ∀ s : State,
    (∀ k : Fin 16, ∃ t, hostOp (.setKey k.val) s = .next t ∧ t.key[k.val] = true ∧
      (∀ j : Fin 16, j ≠ k → t.key[j.val] = s.key[j.val]) ∧ Frame [] [.key] s t) ∧
    (∀ k, 16 ≤ k → hostOp (.setKey k) s = .refused (.keyOutOfRange k) ∧ afterOp (.setKey k) s = s) ∧
    (∃ t, hostOp .clearKeys s = .next t ∧ (∀ j : Fin 16, t.key[j.val] = false) ∧ Frame [] [.key] s t)

/-- R254: READ_DISPLAY gives pixel (x, y) at index y*64 + x and changes nothing. -/
def Obligations.ReadDisplayIsLinear : Prop :=
  ∀ s : State, hostOp .readDisplay s = .next s ∧
    ∃ pixels, hostReply .readDisplay s = .display pixels ∧ pixels.length = 2048 ∧
      ∀ x y, x < 64 → (h : y < 32) → pixels[y * 64 + x]? = some (BitVec.ofBool (s.scr[y].getLsbD x))

/-- Every host operation, from every state that meets the invariant (no run from reset is asked for), gives a state that
meets it and has the same parameters, where the operation is refused too. The canonical form of memory is the model's
(log 17); what FAULT records is D8 and the refusals are D16 and D24 (the spec's own decisions, logs 5 and 14). -/
def Obligations.EveryHostOperationKeepsInvariant : Prop :=
  ∀ (op : HostOp) (s : State), Inv s → Inv (afterOp op s) ∧ (afterOp op s).config = s.config
end

