-- ==== Sys2Proof/Laws/State.lean ====
section
/-! SUPPORT. What each field of State is after each named update, true by definition, so that no later proof unfolds a
record update. -/

namespace Sys2Proof.Machine

/-! #### setV -/

@[simp] theorem State.setV_v (s : State) (v : Vector Byte 16) : (s.setV v).v = v := rfl
@[simp] theorem State.setV_index (s : State) (v : Vector Byte 16) : (s.setV v).index = s.index := rfl
@[simp] theorem State.setV_pc (s : State) (v : Vector Byte 16) : (s.setV v).pc = s.pc := rfl
@[simp] theorem State.setV_stk (s : State) (v : Vector Byte 16) : (s.setV v).stk = s.stk := rfl
@[simp] theorem State.setV_sp (s : State) (v : Vector Byte 16) : (s.setV v).sp = s.sp := rfl
@[simp] theorem State.setV_dt (s : State) (v : Vector Byte 16) : (s.setV v).dt = s.dt := rfl
@[simp] theorem State.setV_st (s : State) (v : Vector Byte 16) : (s.setV v).st = s.st := rfl
@[simp] theorem State.setV_mem (s : State) (v : Vector Byte 16) : (s.setV v).mem = s.mem := rfl
@[simp] theorem State.setV_scr (s : State) (v : Vector Byte 16) : (s.setV v).scr = s.scr := rfl
@[simp] theorem State.setV_key (s : State) (v : Vector Byte 16) : (s.setV v).key = s.key := rfl
@[simp] theorem State.setV_fault (s : State) (v : Vector Byte 16) : (s.setV v).fault = s.fault := rfl
@[simp] theorem State.setV_randCount (s : State) (v : Vector Byte 16) : (s.setV v).randCount = s.randCount := rfl
@[simp] theorem State.setV_config (s : State) (v : Vector Byte 16) : (s.setV v).config = s.config := rfl
@[simp] theorem State.setV_byteAt (s : State) (v : Vector Byte 16) (k : Nat) : (s.setV v).byteAt k = s.byteAt k := rfl

/-! #### setIndex -/

@[simp] theorem State.setIndex_v (s : State) (a : Word) : (s.setIndex a).v = s.v := rfl
@[simp] theorem State.setIndex_index (s : State) (a : Word) : (s.setIndex a).index = a := rfl
@[simp] theorem State.setIndex_pc (s : State) (a : Word) : (s.setIndex a).pc = s.pc := rfl
@[simp] theorem State.setIndex_stk (s : State) (a : Word) : (s.setIndex a).stk = s.stk := rfl
@[simp] theorem State.setIndex_sp (s : State) (a : Word) : (s.setIndex a).sp = s.sp := rfl
@[simp] theorem State.setIndex_dt (s : State) (a : Word) : (s.setIndex a).dt = s.dt := rfl
@[simp] theorem State.setIndex_st (s : State) (a : Word) : (s.setIndex a).st = s.st := rfl
@[simp] theorem State.setIndex_mem (s : State) (a : Word) : (s.setIndex a).mem = s.mem := rfl
@[simp] theorem State.setIndex_scr (s : State) (a : Word) : (s.setIndex a).scr = s.scr := rfl
@[simp] theorem State.setIndex_key (s : State) (a : Word) : (s.setIndex a).key = s.key := rfl
@[simp] theorem State.setIndex_fault (s : State) (a : Word) : (s.setIndex a).fault = s.fault := rfl
@[simp] theorem State.setIndex_randCount (s : State) (a : Word) : (s.setIndex a).randCount = s.randCount := rfl
@[simp] theorem State.setIndex_config (s : State) (a : Word) : (s.setIndex a).config = s.config := rfl
@[simp] theorem State.setIndex_reg (s : State) (a : Word) (r : Reg) : (s.setIndex a).reg r = s.reg r := rfl
@[simp] theorem State.setIndex_byteAt (s : State) (a : Word) (k : Nat) : (s.setIndex a).byteAt k = s.byteAt k := rfl

/-! #### setPc -/

@[simp] theorem State.setPc_v (s : State) (a : Word) : (s.setPc a).v = s.v := rfl
@[simp] theorem State.setPc_index (s : State) (a : Word) : (s.setPc a).index = s.index := rfl
@[simp] theorem State.setPc_pc (s : State) (a : Word) : (s.setPc a).pc = a := rfl
@[simp] theorem State.setPc_stk (s : State) (a : Word) : (s.setPc a).stk = s.stk := rfl
@[simp] theorem State.setPc_sp (s : State) (a : Word) : (s.setPc a).sp = s.sp := rfl
@[simp] theorem State.setPc_dt (s : State) (a : Word) : (s.setPc a).dt = s.dt := rfl
@[simp] theorem State.setPc_st (s : State) (a : Word) : (s.setPc a).st = s.st := rfl
@[simp] theorem State.setPc_mem (s : State) (a : Word) : (s.setPc a).mem = s.mem := rfl
@[simp] theorem State.setPc_scr (s : State) (a : Word) : (s.setPc a).scr = s.scr := rfl
@[simp] theorem State.setPc_key (s : State) (a : Word) : (s.setPc a).key = s.key := rfl
@[simp] theorem State.setPc_fault (s : State) (a : Word) : (s.setPc a).fault = s.fault := rfl
@[simp] theorem State.setPc_randCount (s : State) (a : Word) : (s.setPc a).randCount = s.randCount := rfl
@[simp] theorem State.setPc_config (s : State) (a : Word) : (s.setPc a).config = s.config := rfl
@[simp] theorem State.setPc_reg (s : State) (a : Word) (r : Reg) : (s.setPc a).reg r = s.reg r := rfl
@[simp] theorem State.setPc_byteAt (s : State) (a : Word) (k : Nat) : (s.setPc a).byteAt k = s.byteAt k := rfl

/-! #### setStack -/

@[simp] theorem State.setStack_v (s : State) (stk : Vector Word 16) (sp : Fin 17) : (s.setStack stk sp).v = s.v := rfl
@[simp] theorem State.setStack_index (s : State) (stk : Vector Word 16) (sp : Fin 17) : (s.setStack stk sp).index = s.index := rfl
@[simp] theorem State.setStack_pc (s : State) (stk : Vector Word 16) (sp : Fin 17) : (s.setStack stk sp).pc = s.pc := rfl
@[simp] theorem State.setStack_stk (s : State) (stk : Vector Word 16) (sp : Fin 17) : (s.setStack stk sp).stk = stk := rfl
@[simp] theorem State.setStack_sp (s : State) (stk : Vector Word 16) (sp : Fin 17) : (s.setStack stk sp).sp = sp := rfl
@[simp] theorem State.setStack_dt (s : State) (stk : Vector Word 16) (sp : Fin 17) : (s.setStack stk sp).dt = s.dt := rfl
@[simp] theorem State.setStack_st (s : State) (stk : Vector Word 16) (sp : Fin 17) : (s.setStack stk sp).st = s.st := rfl
@[simp] theorem State.setStack_mem (s : State) (stk : Vector Word 16) (sp : Fin 17) : (s.setStack stk sp).mem = s.mem := rfl
@[simp] theorem State.setStack_scr (s : State) (stk : Vector Word 16) (sp : Fin 17) : (s.setStack stk sp).scr = s.scr := rfl
@[simp] theorem State.setStack_key (s : State) (stk : Vector Word 16) (sp : Fin 17) : (s.setStack stk sp).key = s.key := rfl
@[simp] theorem State.setStack_fault (s : State) (stk : Vector Word 16) (sp : Fin 17) : (s.setStack stk sp).fault = s.fault := rfl
@[simp] theorem State.setStack_randCount (s : State) (stk : Vector Word 16) (sp : Fin 17) : (s.setStack stk sp).randCount = s.randCount := rfl
@[simp] theorem State.setStack_config (s : State) (stk : Vector Word 16) (sp : Fin 17) : (s.setStack stk sp).config = s.config := rfl
@[simp] theorem State.setStack_reg (s : State) (stk : Vector Word 16) (sp : Fin 17) (r : Reg) : (s.setStack stk sp).reg r = s.reg r := rfl
@[simp] theorem State.setStack_byteAt (s : State) (stk : Vector Word 16) (sp : Fin 17) (k : Nat) : (s.setStack stk sp).byteAt k = s.byteAt k := rfl

/-! #### setDt -/

@[simp] theorem State.setDt_v (s : State) (b : Byte) : (s.setDt b).v = s.v := rfl
@[simp] theorem State.setDt_index (s : State) (b : Byte) : (s.setDt b).index = s.index := rfl
@[simp] theorem State.setDt_pc (s : State) (b : Byte) : (s.setDt b).pc = s.pc := rfl
@[simp] theorem State.setDt_stk (s : State) (b : Byte) : (s.setDt b).stk = s.stk := rfl
@[simp] theorem State.setDt_sp (s : State) (b : Byte) : (s.setDt b).sp = s.sp := rfl
@[simp] theorem State.setDt_dt (s : State) (b : Byte) : (s.setDt b).dt = b := rfl
@[simp] theorem State.setDt_st (s : State) (b : Byte) : (s.setDt b).st = s.st := rfl
@[simp] theorem State.setDt_mem (s : State) (b : Byte) : (s.setDt b).mem = s.mem := rfl
@[simp] theorem State.setDt_scr (s : State) (b : Byte) : (s.setDt b).scr = s.scr := rfl
@[simp] theorem State.setDt_key (s : State) (b : Byte) : (s.setDt b).key = s.key := rfl
@[simp] theorem State.setDt_fault (s : State) (b : Byte) : (s.setDt b).fault = s.fault := rfl
@[simp] theorem State.setDt_randCount (s : State) (b : Byte) : (s.setDt b).randCount = s.randCount := rfl
@[simp] theorem State.setDt_config (s : State) (b : Byte) : (s.setDt b).config = s.config := rfl
@[simp] theorem State.setDt_reg (s : State) (b : Byte) (r : Reg) : (s.setDt b).reg r = s.reg r := rfl
@[simp] theorem State.setDt_byteAt (s : State) (b : Byte) (k : Nat) : (s.setDt b).byteAt k = s.byteAt k := rfl

/-! #### setSt -/

@[simp] theorem State.setSt_v (s : State) (b : Byte) : (s.setSt b).v = s.v := rfl
@[simp] theorem State.setSt_index (s : State) (b : Byte) : (s.setSt b).index = s.index := rfl
@[simp] theorem State.setSt_pc (s : State) (b : Byte) : (s.setSt b).pc = s.pc := rfl
@[simp] theorem State.setSt_stk (s : State) (b : Byte) : (s.setSt b).stk = s.stk := rfl
@[simp] theorem State.setSt_sp (s : State) (b : Byte) : (s.setSt b).sp = s.sp := rfl
@[simp] theorem State.setSt_dt (s : State) (b : Byte) : (s.setSt b).dt = s.dt := rfl
@[simp] theorem State.setSt_st (s : State) (b : Byte) : (s.setSt b).st = b := rfl
@[simp] theorem State.setSt_mem (s : State) (b : Byte) : (s.setSt b).mem = s.mem := rfl
@[simp] theorem State.setSt_scr (s : State) (b : Byte) : (s.setSt b).scr = s.scr := rfl
@[simp] theorem State.setSt_key (s : State) (b : Byte) : (s.setSt b).key = s.key := rfl
@[simp] theorem State.setSt_fault (s : State) (b : Byte) : (s.setSt b).fault = s.fault := rfl
@[simp] theorem State.setSt_randCount (s : State) (b : Byte) : (s.setSt b).randCount = s.randCount := rfl
@[simp] theorem State.setSt_config (s : State) (b : Byte) : (s.setSt b).config = s.config := rfl
@[simp] theorem State.setSt_reg (s : State) (b : Byte) (r : Reg) : (s.setSt b).reg r = s.reg r := rfl
@[simp] theorem State.setSt_byteAt (s : State) (b : Byte) (k : Nat) : (s.setSt b).byteAt k = s.byteAt k := rfl

/-! #### setMem -/

@[simp] theorem State.setMem_v (s : State) (m : Memory) : (s.setMem m).v = s.v := rfl
@[simp] theorem State.setMem_index (s : State) (m : Memory) : (s.setMem m).index = s.index := rfl
@[simp] theorem State.setMem_pc (s : State) (m : Memory) : (s.setMem m).pc = s.pc := rfl
@[simp] theorem State.setMem_stk (s : State) (m : Memory) : (s.setMem m).stk = s.stk := rfl
@[simp] theorem State.setMem_sp (s : State) (m : Memory) : (s.setMem m).sp = s.sp := rfl
@[simp] theorem State.setMem_dt (s : State) (m : Memory) : (s.setMem m).dt = s.dt := rfl
@[simp] theorem State.setMem_st (s : State) (m : Memory) : (s.setMem m).st = s.st := rfl
@[simp] theorem State.setMem_mem (s : State) (m : Memory) : (s.setMem m).mem = m := rfl
@[simp] theorem State.setMem_scr (s : State) (m : Memory) : (s.setMem m).scr = s.scr := rfl
@[simp] theorem State.setMem_key (s : State) (m : Memory) : (s.setMem m).key = s.key := rfl
@[simp] theorem State.setMem_fault (s : State) (m : Memory) : (s.setMem m).fault = s.fault := rfl
@[simp] theorem State.setMem_randCount (s : State) (m : Memory) : (s.setMem m).randCount = s.randCount := rfl
@[simp] theorem State.setMem_config (s : State) (m : Memory) : (s.setMem m).config = s.config := rfl
@[simp] theorem State.setMem_reg (s : State) (m : Memory) (r : Reg) : (s.setMem m).reg r = s.reg r := rfl

/-! #### setScr -/

@[simp] theorem State.setScr_v (s : State) (scr : Screen) : (s.setScr scr).v = s.v := rfl
@[simp] theorem State.setScr_index (s : State) (scr : Screen) : (s.setScr scr).index = s.index := rfl
@[simp] theorem State.setScr_pc (s : State) (scr : Screen) : (s.setScr scr).pc = s.pc := rfl
@[simp] theorem State.setScr_stk (s : State) (scr : Screen) : (s.setScr scr).stk = s.stk := rfl
@[simp] theorem State.setScr_sp (s : State) (scr : Screen) : (s.setScr scr).sp = s.sp := rfl
@[simp] theorem State.setScr_dt (s : State) (scr : Screen) : (s.setScr scr).dt = s.dt := rfl
@[simp] theorem State.setScr_st (s : State) (scr : Screen) : (s.setScr scr).st = s.st := rfl
@[simp] theorem State.setScr_mem (s : State) (scr : Screen) : (s.setScr scr).mem = s.mem := rfl
@[simp] theorem State.setScr_scr (s : State) (scr : Screen) : (s.setScr scr).scr = scr := rfl
@[simp] theorem State.setScr_key (s : State) (scr : Screen) : (s.setScr scr).key = s.key := rfl
@[simp] theorem State.setScr_fault (s : State) (scr : Screen) : (s.setScr scr).fault = s.fault := rfl
@[simp] theorem State.setScr_randCount (s : State) (scr : Screen) : (s.setScr scr).randCount = s.randCount := rfl
@[simp] theorem State.setScr_config (s : State) (scr : Screen) : (s.setScr scr).config = s.config := rfl
@[simp] theorem State.setScr_reg (s : State) (scr : Screen) (r : Reg) : (s.setScr scr).reg r = s.reg r := rfl
@[simp] theorem State.setScr_byteAt (s : State) (scr : Screen) (k : Nat) : (s.setScr scr).byteAt k = s.byteAt k := rfl

/-! #### setKey -/

@[simp] theorem State.setKey_v (s : State) (key : Vector Bool 16) : (s.setKey key).v = s.v := rfl
@[simp] theorem State.setKey_index (s : State) (key : Vector Bool 16) : (s.setKey key).index = s.index := rfl
@[simp] theorem State.setKey_pc (s : State) (key : Vector Bool 16) : (s.setKey key).pc = s.pc := rfl
@[simp] theorem State.setKey_stk (s : State) (key : Vector Bool 16) : (s.setKey key).stk = s.stk := rfl
@[simp] theorem State.setKey_sp (s : State) (key : Vector Bool 16) : (s.setKey key).sp = s.sp := rfl
@[simp] theorem State.setKey_dt (s : State) (key : Vector Bool 16) : (s.setKey key).dt = s.dt := rfl
@[simp] theorem State.setKey_st (s : State) (key : Vector Bool 16) : (s.setKey key).st = s.st := rfl
@[simp] theorem State.setKey_mem (s : State) (key : Vector Bool 16) : (s.setKey key).mem = s.mem := rfl
@[simp] theorem State.setKey_scr (s : State) (key : Vector Bool 16) : (s.setKey key).scr = s.scr := rfl
@[simp] theorem State.setKey_key (s : State) (key : Vector Bool 16) : (s.setKey key).key = key := rfl
@[simp] theorem State.setKey_fault (s : State) (key : Vector Bool 16) : (s.setKey key).fault = s.fault := rfl
@[simp] theorem State.setKey_randCount (s : State) (key : Vector Bool 16) : (s.setKey key).randCount = s.randCount := rfl
@[simp] theorem State.setKey_config (s : State) (key : Vector Bool 16) : (s.setKey key).config = s.config := rfl
@[simp] theorem State.setKey_reg (s : State) (key : Vector Bool 16) (r : Reg) : (s.setKey key).reg r = s.reg r := rfl
@[simp] theorem State.setKey_byteAt (s : State) (key : Vector Bool 16) (k : Nat) : (s.setKey key).byteAt k = s.byteAt k := rfl

/-! #### setFault -/

@[simp] theorem State.setFault_v (s : State) (f : Option FaultRecord) : (s.setFault f).v = s.v := rfl
@[simp] theorem State.setFault_index (s : State) (f : Option FaultRecord) : (s.setFault f).index = s.index := rfl
@[simp] theorem State.setFault_pc (s : State) (f : Option FaultRecord) : (s.setFault f).pc = s.pc := rfl
@[simp] theorem State.setFault_stk (s : State) (f : Option FaultRecord) : (s.setFault f).stk = s.stk := rfl
@[simp] theorem State.setFault_sp (s : State) (f : Option FaultRecord) : (s.setFault f).sp = s.sp := rfl
@[simp] theorem State.setFault_dt (s : State) (f : Option FaultRecord) : (s.setFault f).dt = s.dt := rfl
@[simp] theorem State.setFault_st (s : State) (f : Option FaultRecord) : (s.setFault f).st = s.st := rfl
@[simp] theorem State.setFault_mem (s : State) (f : Option FaultRecord) : (s.setFault f).mem = s.mem := rfl
@[simp] theorem State.setFault_scr (s : State) (f : Option FaultRecord) : (s.setFault f).scr = s.scr := rfl
@[simp] theorem State.setFault_key (s : State) (f : Option FaultRecord) : (s.setFault f).key = s.key := rfl
@[simp] theorem State.setFault_fault (s : State) (f : Option FaultRecord) : (s.setFault f).fault = f := rfl
@[simp] theorem State.setFault_randCount (s : State) (f : Option FaultRecord) : (s.setFault f).randCount = s.randCount := rfl
@[simp] theorem State.setFault_config (s : State) (f : Option FaultRecord) : (s.setFault f).config = s.config := rfl
@[simp] theorem State.setFault_reg (s : State) (f : Option FaultRecord) (r : Reg) : (s.setFault f).reg r = s.reg r := rfl
@[simp] theorem State.setFault_byteAt (s : State) (f : Option FaultRecord) (k : Nat) : (s.setFault f).byteAt k = s.byteAt k := rfl

/-! #### setRandCount -/

@[simp] theorem State.setRandCount_v (s : State) (n : Nat) : (s.setRandCount n).v = s.v := rfl
@[simp] theorem State.setRandCount_index (s : State) (n : Nat) : (s.setRandCount n).index = s.index := rfl
@[simp] theorem State.setRandCount_pc (s : State) (n : Nat) : (s.setRandCount n).pc = s.pc := rfl
@[simp] theorem State.setRandCount_stk (s : State) (n : Nat) : (s.setRandCount n).stk = s.stk := rfl
@[simp] theorem State.setRandCount_sp (s : State) (n : Nat) : (s.setRandCount n).sp = s.sp := rfl
@[simp] theorem State.setRandCount_dt (s : State) (n : Nat) : (s.setRandCount n).dt = s.dt := rfl
@[simp] theorem State.setRandCount_st (s : State) (n : Nat) : (s.setRandCount n).st = s.st := rfl
@[simp] theorem State.setRandCount_mem (s : State) (n : Nat) : (s.setRandCount n).mem = s.mem := rfl
@[simp] theorem State.setRandCount_scr (s : State) (n : Nat) : (s.setRandCount n).scr = s.scr := rfl
@[simp] theorem State.setRandCount_key (s : State) (n : Nat) : (s.setRandCount n).key = s.key := rfl
@[simp] theorem State.setRandCount_fault (s : State) (n : Nat) : (s.setRandCount n).fault = s.fault := rfl
@[simp] theorem State.setRandCount_randCount (s : State) (n : Nat) : (s.setRandCount n).randCount = n := rfl
@[simp] theorem State.setRandCount_config (s : State) (n : Nat) : (s.setRandCount n).config = s.config := rfl
@[simp] theorem State.setRandCount_reg (s : State) (n : Nat) (r : Reg) : (s.setRandCount n).reg r = s.reg r := rfl
@[simp] theorem State.setRandCount_byteAt (s : State) (n : Nat) (k : Nat) : (s.setRandCount n).byteAt k = s.byteAt k := rfl

/-! #### setReg -/

@[simp] theorem State.setReg_v (s : State) (x : Reg) (b : Byte) : (s.setReg x b).v = s.v.set x.val b := rfl
@[simp] theorem State.setReg_index (s : State) (x : Reg) (b : Byte) : (s.setReg x b).index = s.index := rfl
@[simp] theorem State.setReg_pc (s : State) (x : Reg) (b : Byte) : (s.setReg x b).pc = s.pc := rfl
@[simp] theorem State.setReg_stk (s : State) (x : Reg) (b : Byte) : (s.setReg x b).stk = s.stk := rfl
@[simp] theorem State.setReg_sp (s : State) (x : Reg) (b : Byte) : (s.setReg x b).sp = s.sp := rfl
@[simp] theorem State.setReg_dt (s : State) (x : Reg) (b : Byte) : (s.setReg x b).dt = s.dt := rfl
@[simp] theorem State.setReg_st (s : State) (x : Reg) (b : Byte) : (s.setReg x b).st = s.st := rfl
@[simp] theorem State.setReg_mem (s : State) (x : Reg) (b : Byte) : (s.setReg x b).mem = s.mem := rfl
@[simp] theorem State.setReg_scr (s : State) (x : Reg) (b : Byte) : (s.setReg x b).scr = s.scr := rfl
@[simp] theorem State.setReg_key (s : State) (x : Reg) (b : Byte) : (s.setReg x b).key = s.key := rfl
@[simp] theorem State.setReg_fault (s : State) (x : Reg) (b : Byte) : (s.setReg x b).fault = s.fault := rfl
@[simp] theorem State.setReg_randCount (s : State) (x : Reg) (b : Byte) : (s.setReg x b).randCount = s.randCount := rfl
@[simp] theorem State.setReg_config (s : State) (x : Reg) (b : Byte) : (s.setReg x b).config = s.config := rfl
@[simp] theorem State.setReg_byteAt (s : State) (x : Reg) (b : Byte) (k : Nat) : (s.setReg x b).byteAt k = s.byteAt k := rfl

/-- A register reads what was last written to it, and every other register reads as before. -/
@[simp] theorem State.reg_setReg (s : State) (x r : Reg) (b : Byte) :
    (s.setReg x b).reg r = if r = x then b else s.reg r := by
  by_cases h : r = x
  · subst h; simp [State.reg, State.setReg]
  · have hne : x.val ≠ r.val := fun e => h (Fin.ext e.symm)
    simp [State.reg, State.setReg, h, Vector.getElem_set_ne, hne]

theorem State.reg_setReg_same (s : State) (x : Reg) (b : Byte) : (s.setReg x b).reg x = b := by simp

theorem State.reg_setReg_other (s : State) {x r : Reg} (h : r ≠ x) (b : Byte) : (s.setReg x b).reg r = s.reg r := by
  simp [h]

/-- Reading a byte after a write to memory. -/
theorem State.setMem_byteAt (s : State) (m : Memory) (k : Nat) :
    (s.setMem m).byteAt k = Memory.read s.config.glyphs m k := rfl

/-! #### The operations named after a rule are updates of one field -/

theorem State.advancePc_eq (s : State) : s.advancePc = s.setPc (s.pc + 2#16) := rfl
theorem State.skip_eq (s : State) : s.skip = s.setPc (s.pc + 2#16) := rfl
theorem State.skipIf_eq (s : State) (c : Bool) : s.skipIf c = s.setPc (if c then s.pc + 2#16 else s.pc) := by
  cases c <;> rfl
theorem State.advanceIndex_eq (s : State) (x : Reg) :
    s.advanceIndex x = s.setIndex (s.index + BitVec.ofNat 16 (x.val + 1)) := rfl
theorem State.setFlag_eq (s : State) (f : Bool) : s.setFlag f = s.setReg flagReg (flagByte f) := rfl
theorem State.resultThenFlag_eq (s : State) (x : Reg) (b : Byte) (f : Bool) :
    s.resultThenFlag x b f = (s.setReg x b).setReg flagReg (flagByte f) := rfl

/-- Two states with the same fields are the same state. -/
@[ext] theorem State.ext' {s t : State} (hv : s.v = t.v) (hi : s.index = t.index) (hpc : s.pc = t.pc)
    (hstk : s.stk = t.stk) (hsp : s.sp = t.sp) (hdt : s.dt = t.dt) (hst : s.st = t.st) (hm : s.mem = t.mem)
    (hscr : s.scr = t.scr) (hk : s.key = t.key) (hf : s.fault = t.fault) (hr : s.randCount = t.randCount)
    (hc : s.config = t.config) : s = t := by
  cases s; cases t; simp_all

end Sys2Proof.Machine
end

