-- ==== Sys2Proof/Laws/Draw.lean ====
section
/-! SUPPORT. What the draw algorithm does (41_display.md R142 to R145): the target pixels of one draw are pairwise
distinct, so the draw flips exactly the covered pixels, and the collision flag says whether one of them was set. -/

namespace Sys2Proof.Machine

/-! ### Pixels -/

/-- Flipping one pixel changes that pixel and no other. -/
theorem Screen.pixel_flip (scr : Screen) (p q : Nat) (hp : p < 2048) :
    Screen.pixel (Screen.flip scr p) q = if q = p then !Screen.pixel scr q else Screen.pixel scr q := by
  by_cases hq : q < 2048
  · simp only [Screen.pixel, Screen.flip, dif_pos hp, dif_pos hq]
    by_cases hrow : q / 64 = p / 64
    · have hg : (scr.set (p / 64) (scr[p / 64] ^^^ 1#64 <<< (p % 64)))[q / 64]
          = scr[p / 64] ^^^ 1#64 <<< (p % 64) := by simp [hrow]
      rw [hg]
      have hb : (1#64 <<< (p % 64)).getLsbD (q % 64) = decide (q % 64 = p % 64) := by
        have h64 : q % 64 < 64 := Nat.mod_lt _ (by decide)
        rw [BitVec.getLsbD_shiftLeft, BitVec.getLsbD_one]
        by_cases e : q % 64 = p % 64
        · simp [e]; omega
        · simp [e]; omega
      rw [BitVec.getLsbD_xor, hb]
      by_cases e : q = p
      · subst e; simp
      · have hne : ¬ q % 64 = p % 64 := fun h => e (by omega)
        simp [e, hne, hrow]
    · have hg : (scr.set (p / 64) (scr[p / 64] ^^^ 1#64 <<< (p % 64)))[q / 64] = scr[q / 64] :=
        Vector.getElem_set_ne _ _ (fun h => hrow h.symm)
      have e : q ≠ p := fun h => hrow (by rw [h])
      rw [hg, if_neg e]
  · have e : q ≠ p := fun h => hq (h ▸ hp)
    simp [Screen.pixel, hq, e]

/-- Every pixel of a clear screen is 0. -/
theorem Screen.pixel_clear (p : Nat) : Screen.pixel Screen.clear p = false := by
  simp only [Screen.pixel]
  split
  · simp [Screen.clear]
  · rfl

/-- Two screens whose 2048 pixels agree are the same. -/
theorem Screen.ext_pixel {a b : Screen} (h : ∀ p, p < 2048 → Screen.pixel a p = Screen.pixel b p) : a = b := by
  apply Vector.ext
  intro y hy
  apply BitVec.eq_of_getLsbD_eq
  intro x hx
  have hp : y * 64 + x < 2048 := by omega
  have := h (y * 64 + x) hp
  have e1 : (y * 64 + x) / 64 = y := by omega
  have e2 : (y * 64 + x) % 64 = x := by omega
  simpa only [Screen.pixel, dif_pos hp, e1, e2] using this

theorem pixelIndex_lt (xc yc : Byte) (r c : Nat) : pixelIndex xc yc r c < 2048 := Nat.mod_lt _ (by decide)

/-- No self-overlap (R145), for rows that are fewer than 32 apart. -/
theorem pixelIndex_injective (xc yc : Byte) {r r' c c' : Nat} (hr : r < 32) (hr' : r' < 32) (hc : c < 8) (hc' : c' < 8)
    (h : pixelIndex xc yc r c = pixelIndex xc yc r' c') : r = r' ∧ c = c' := by
  unfold pixelIndex at h
  omega

/-! ### One draw as a list of flips -/

/-- The pixels a sprite row flips. -/
def rowTargets (xc yc : Byte) (r : Nat) (b : Byte) : List Nat :=
  ((List.range 8).filter (spriteBit b)).map (pixelIndex xc yc r)

/-- The pixels a sprite flips. -/
def targets (xc yc : Byte) : Nat → List Byte → List Nat
  | _, [] => []
  | r, b :: bs => rowTargets xc yc r b ++ targets xc yc (r + 1) bs

/-- Flip each pixel of the list, noting a collision. -/
def flipAll (ps : List Nat) (d : Screen × Bool) : Screen × Bool := ps.foldl (fun d p => drawBit d p true) d

theorem foldl_drawBit (f : Nat → Nat) (bit : Nat → Bool) (cs : List Nat) (d : Screen × Bool) :
    cs.foldl (fun d c => drawBit d (f c) (bit c)) d = flipAll ((cs.filter bit).map f) d := by
  induction cs generalizing d with
  | nil => rfl
  | cons c cs ih =>
    rw [List.foldl_cons, ih]
    by_cases h : bit c = true
    · rw [List.filter_cons_of_pos h, h]; rfl
    · rw [List.filter_cons_of_neg h]
      have hf : bit c = false := by simpa using h
      rw [hf]; rfl

theorem drawRow_eq (xc yc : Byte) (r : Nat) (b : Byte) (d : Screen × Bool) :
    drawRow xc yc r b d = flipAll (rowTargets xc yc r b) d := foldl_drawBit _ _ _ d

theorem drawRows_eq (xc yc : Byte) (r : Nat) (bs : List Byte) (d : Screen × Bool) :
    drawRows xc yc r bs d = flipAll (targets xc yc r bs) d := by
  induction bs generalizing r d with
  | nil => rfl
  | cons b bs ih => rw [drawRows, ih, drawRow_eq, targets, flipAll, flipAll, flipAll, List.foldl_append]

theorem mem_targets {xc yc : Byte} {r p : Nat} {bs : List Byte} :
    p ∈ targets xc yc r bs ↔
      ∃ k c, ∃ h : k < bs.length, c < 8 ∧ spriteBit bs[k] c = true ∧ p = pixelIndex xc yc (r + k) c := by
  induction bs generalizing r with
  | nil => simp [targets]
  | cons b bs ih =>
    rw [targets, List.mem_append, ih]
    constructor
    · rintro (h | ⟨k, c, hk, hc, hb, hp⟩)
      · obtain ⟨c, hc, hp⟩ := List.mem_map.mp h
        obtain ⟨hc1, hc2⟩ := List.mem_filter.mp hc
        exact ⟨0, c, Nat.succ_pos _, List.mem_range.mp hc1, hc2, hp.symm⟩
      · exact ⟨k + 1, c, Nat.succ_lt_succ hk, hc, hb, by rw [hp]; congr 1; omega⟩
    · rintro ⟨k, c, hk, hc, hb, hp⟩
      cases k with
      | zero => exact .inl (List.mem_map.mpr ⟨c, List.mem_filter.mpr ⟨List.mem_range.mpr hc, hb⟩, hp.symm⟩)
      | succ k =>
        exact .inr ⟨k, c, Nat.lt_of_succ_lt_succ hk, hc, hb, by rw [hp]; congr 1; omega⟩

theorem nodup_targets (xc yc : Byte) (r : Nat) (bs : List Byte) (h : r + bs.length ≤ 32) :
    (targets xc yc r bs).Nodup := by
  induction bs generalizing r with
  | nil => exact List.nodup_nil
  | cons b bs ih =>
    rw [List.length_cons] at h
    rw [targets, List.nodup_append]
    refine ⟨?_, ih (r + 1) (by omega), ?_⟩
    · refine List.Nodup.map_on ?_ (List.nodup_range.filter _)
      intro c hc c' hc' e
      have h1 := List.mem_range.mp (List.mem_filter.mp hc).1
      have h2 := List.mem_range.mp (List.mem_filter.mp hc').1
      exact (pixelIndex_injective xc yc (by omega) (by omega) h1 h2 e).2
    · intro p hp q hq e
      obtain ⟨c, hc, rfl⟩ := List.mem_map.mp hp
      have h1 := List.mem_range.mp (List.mem_filter.mp hc).1
      obtain ⟨k, c', hk, hc', _, hq'⟩ := mem_targets.mp hq
      have := (pixelIndex_injective xc yc (by omega) (by omega) h1 hc' (e.trans hq')).1
      omega

/-- Flipping pairwise distinct pixels flips exactly those, and a collision is a pixel of the list that was set. -/
theorem flipAll_spec (ps : List Nat) (d : Screen × Bool) (hn : ps.Nodup) (hlt : ∀ p ∈ ps, p < 2048) :
    (∀ q, Screen.pixel (flipAll ps d).1 q = if q ∈ ps then !Screen.pixel d.1 q else Screen.pixel d.1 q) ∧
    (flipAll ps d).2 = (d.2 || ps.any (fun p => Screen.pixel d.1 p)) := by
  induction ps generalizing d with
  | nil => simp [flipAll]
  | cons p ps ih =>
    obtain ⟨hp, hn'⟩ := List.nodup_cons.mp hn
    have hlt' : p < 2048 := hlt p List.mem_cons_self
    have hstep : flipAll (p :: ps) d = flipAll ps (Screen.flip d.1 p, d.2 || Screen.pixel d.1 p) := rfl
    obtain ⟨h1, h2⟩ := ih (Screen.flip d.1 p, d.2 || Screen.pixel d.1 p) hn' (fun q hq => hlt q (List.mem_cons_of_mem _ hq))
    rw [hstep]
    refine ⟨fun q => ?_, ?_⟩
    · rw [h1 q, Screen.pixel_flip d.1 p q hlt']
      by_cases hq : q ∈ ps
      · have hne : q ≠ p := fun e => hp (e ▸ hq)
        simp [hq, hne]
      · by_cases e : q = p <;> simp [hq, e, hp]
    · rw [h2, List.any_cons, Bool.or_assoc]
      congr 2
      rw [Bool.eq_iff_iff, List.any_eq_true, List.any_eq_true]
      refine exists_congr fun q => and_congr_right fun hq => ?_
      rw [Screen.pixel_flip d.1 p q hlt', if_neg (fun e => hp (by rw [← e]; exact hq))]

/-! ### The sprite -/

/-- Pixel p is covered by a set bit of the sprite drawn at (xc, yc). -/
def Covered (xc yc : Byte) (sprite : List Byte) (p : Nat) : Prop :=
  ∃ k c, ∃ h : k < sprite.length, c < 8 ∧ spriteBit sprite[k] c = true ∧ p = pixelIndex xc yc k c

theorem mem_targets_zero {xc yc : Byte} {p : Nat} {bs : List Byte} :
    p ∈ targets xc yc 0 bs ↔ Covered xc yc bs p := by
  rw [mem_targets]
  simp only [Nat.zero_add, Covered]

theorem Covered.lt {xc yc : Byte} {p : Nat} {bs : List Byte} (h : Covered xc yc bs p) : p < 2048 := by
  obtain ⟨k, c, _, _, _, rfl⟩ := h
  exact pixelIndex_lt xc yc k c

/-- The draw flips exactly the covered pixels. -/
theorem drawSprite_pixel (xc yc : Byte) (sprite : List Byte) (scr : Screen) (h : sprite.length ≤ 15) (p : Nat) :
    (Covered xc yc sprite p → Screen.pixel (drawSprite xc yc sprite scr).1 p = !Screen.pixel scr p) ∧
    (¬ Covered xc yc sprite p → Screen.pixel (drawSprite xc yc sprite scr).1 p = Screen.pixel scr p) := by
  have hs := (flipAll_spec (targets xc yc 0 sprite) (scr, false) (nodup_targets xc yc 0 sprite (by omega))
    (fun q hq => (mem_targets_zero.mp hq).lt)).1 p
  rw [drawSprite, drawRows_eq, hs, ← mem_targets_zero]
  exact ⟨fun hc => if_pos hc, fun hc => if_neg hc⟩

/-- The collision flag says whether a covered pixel was set before the draw (R143). -/
theorem drawSprite_collision (xc yc : Byte) (sprite : List Byte) (scr : Screen) (h : sprite.length ≤ 15) :
    (drawSprite xc yc sprite scr).2 = true ↔ ∃ p, Covered xc yc sprite p ∧ Screen.pixel scr p = true := by
  have hs := (flipAll_spec (targets xc yc 0 sprite) (scr, false) (nodup_targets xc yc 0 sprite (by omega))
    (fun q hq => (mem_targets_zero.mp hq).lt)).2
  rw [drawSprite, drawRows_eq, hs, Bool.false_or, List.any_eq_true]
  exact exists_congr fun p => and_congr_left fun _ => mem_targets_zero

end Sys2Proof.Machine
end

