-- ==== Sys2Proof/Laws/Encoding.lean ====
section
/-! SUPPORT. The fields of a word laid out in each format (30_encoding.md R92, R94), and a word as the concatenation of
its fields. -/

namespace Sys2Proof

/-! ### Formats as numbers -/

theorem formatA_toNat (op : BitVec 4) (nnn : Addr) : (formatA op nnn).toNat = op.toNat * 4096 + nnn.toNat := by
  have h1 := nnn.isLt
  have h : (op ++ nnn : BitVec 16).toNat = op.toNat <<< 12 ||| nnn.toNat := BitVec.toNat_append op nnn
  rw [formatA, h, ← Nat.shiftLeft_add_eq_or_of_lt h1, Nat.shiftLeft_eq]

theorem formatB_toNat (op : BitVec 4) (x : Reg) (kk : Byte) :
    (formatB op x kk).toNat = op.toNat * 4096 + x.val * 256 + kk.toNat := by
  have h1 := kk.isLt
  have h2 : (BitVec.ofFin (w := 4) x).toNat < 2 ^ 4 := (BitVec.ofFin (w := 4) x).isLt
  have hb : ((op ++ BitVec.ofFin (w := 4) x) ++ kk : BitVec 16).toNat
      = (op.toNat <<< 4 ||| (BitVec.ofFin (w := 4) x).toNat) <<< 8 ||| kk.toNat := by
    rw [← BitVec.toNat_append op (BitVec.ofFin (w := 4) x)]
    exact BitVec.toNat_append (op ++ BitVec.ofFin (w := 4) x) kk
  have hx : (BitVec.ofFin (w := 4) x).toNat = x.val := rfl
  rw [formatB, hb, ← Nat.shiftLeft_add_eq_or_of_lt h1, ← Nat.shiftLeft_add_eq_or_of_lt h2, Nat.shiftLeft_eq,
    Nat.shiftLeft_eq, hx]
  omega

theorem formatR_toNat (op : BitVec 4) (x y : Reg) (n : BitVec 4) :
    (formatR op x y n).toNat = op.toNat * 4096 + x.val * 256 + y.val * 16 + n.toNat := by
  have h1 := n.isLt
  have hy : (BitVec.ofFin (w := 4) y ++ n : BitVec 8).toNat = y.val * 16 + n.toNat := by
    have h : (BitVec.ofFin (w := 4) y ++ n : BitVec 8).toNat = (BitVec.ofFin (w := 4) y).toNat <<< 4 ||| n.toNat :=
      BitVec.toNat_append _ n
    rw [h, ← Nat.shiftLeft_add_eq_or_of_lt h1, Nat.shiftLeft_eq]
    rfl
  have h : (formatR op x y n).toNat = op.toNat * 4096 + x.val * 256 + (BitVec.ofFin (w := 4) y ++ n : BitVec 8).toNat :=
    formatB_toNat op x (BitVec.ofFin (w := 4) y ++ n : BitVec 8)
  rw [h, hy]
  exact (Nat.add_assoc _ _ _).symm

/-! ### Fields as numbers -/

theorem fieldOp_eq (w : Word) : fieldOp w = w.toNat / 4096 := by
  have := w.isLt
  simp [fieldOp, Nat.shiftRight_eq_div_pow]
  omega

theorem fieldX_val (w : Word) : (fieldX w).val = w.toNat / 256 % 16 := by
  simp [fieldX, Nat.shiftRight_eq_div_pow]

theorem fieldY_val (w : Word) : (fieldY w).val = w.toNat / 16 % 16 := by
  simp [fieldY, Nat.shiftRight_eq_div_pow]

theorem fieldN_val (w : Word) : (fieldN w).val = w.toNat % 16 := by
  simp [fieldN]

theorem fieldKk_toNat (w : Word) : (fieldKk w).toNat = w.toNat % 256 := by
  simp [fieldKk]

theorem fieldNnn_toNat (w : Word) : (fieldNnn w).toNat = w.toNat % 4096 := by
  simp [fieldNnn]

/-! ### The fields of each format -/

section formatA
variable (op : BitVec 4) (nnn : Addr)

@[simp] theorem fieldOp_formatA : fieldOp (formatA op nnn) = op.toNat := by
  have := nnn.isLt
  rw [fieldOp_eq, formatA_toNat]; omega

@[simp] theorem fieldNnn_formatA : fieldNnn (formatA op nnn) = nnn := by
  have := nnn.isLt
  apply BitVec.eq_of_toNat_eq
  rw [fieldNnn_toNat, formatA_toNat]; omega

end formatA

section formatB
variable (op : BitVec 4) (x : Reg) (kk : Byte)

@[simp] theorem fieldOp_formatB : fieldOp (formatB op x kk) = op.toNat := by
  have := kk.isLt
  have := x.isLt
  rw [fieldOp_eq, formatB_toNat]; omega

@[simp] theorem fieldX_formatB : fieldX (formatB op x kk) = x := by
  have := kk.isLt
  have := x.isLt
  apply Fin.ext
  rw [fieldX_val, formatB_toNat]; omega

@[simp] theorem fieldKk_formatB : fieldKk (formatB op x kk) = kk := by
  have := kk.isLt
  have := x.isLt
  apply BitVec.eq_of_toNat_eq
  rw [fieldKk_toNat, formatB_toNat]; omega

end formatB

section formatR
variable (op : BitVec 4) (x y : Reg) (n : BitVec 4)

@[simp] theorem fieldOp_formatR : fieldOp (formatR op x y n) = op.toNat := by
  have := n.isLt
  have := x.isLt
  have := y.isLt
  rw [fieldOp_eq, formatR_toNat]; omega

@[simp] theorem fieldX_formatR : fieldX (formatR op x y n) = x := by
  have := n.isLt
  have := x.isLt
  have := y.isLt
  apply Fin.ext
  rw [fieldX_val, formatR_toNat]; omega

@[simp] theorem fieldY_formatR : fieldY (formatR op x y n) = y := by
  have := n.isLt
  have := x.isLt
  have := y.isLt
  apply Fin.ext
  rw [fieldY_val, formatR_toNat]; omega

@[simp] theorem fieldN_formatR : fieldN (formatR op x y n) = n.toFin := by
  have := n.isLt
  have := x.isLt
  have := y.isLt
  apply Fin.ext
  have h := fieldN_val (formatR op x y n)
  rw [formatR_toNat] at h
  have hn : (n.toFin : Fin 16).val = n.toNat := rfl
  omega

end formatR

/-! ### A word from its fields -/

/-- Format A with the word's own fields is the word. -/
theorem formatA_fields (w : Word) {op : BitVec 4} (h : fieldOp w = op.toNat) : formatA op (fieldNnn w) = w := by
  apply BitVec.eq_of_toNat_eq
  rw [fieldOp_eq] at h
  rw [formatA_toNat, fieldNnn_toNat]; omega

/-- Format B with the word's own fields is the word. -/
theorem formatB_fields (w : Word) {op : BitVec 4} {kk : Byte} (h : fieldOp w = op.toNat) (hk : fieldKk w = kk) :
    formatB op (fieldX w) kk = w := by
  apply BitVec.eq_of_toNat_eq
  rw [fieldOp_eq] at h
  rw [formatB_toNat, ← hk, fieldX_val, fieldKk_toNat]; omega

/-- Format R with the word's own fields is the word. -/
theorem formatR_fields (w : Word) {op n : BitVec 4} (h : fieldOp w = op.toNat) (hn : (fieldN w).val = n.toNat) :
    formatR op (fieldX w) (fieldY w) n = w := by
  apply BitVec.eq_of_toNat_eq
  rw [fieldOp_eq] at h
  rw [fieldN_val] at hn
  rw [formatR_toNat, fieldX_val, fieldY_val, ← hn]; omega

/-- A word is known by its number: format A. -/
theorem eq_formatA {w : Word} {op : BitVec 4} {nnn : Addr} (h : w.toNat = op.toNat * 4096 + nnn.toNat) :
    w = formatA op nnn := BitVec.eq_of_toNat_eq (h.trans (formatA_toNat op nnn).symm)

/-- A word is known by its number: formats B and S. -/
theorem eq_formatB {w : Word} {op : BitVec 4} {x : Reg} {kk : Byte}
    (h : w.toNat = op.toNat * 4096 + x.val * 256 + kk.toNat) : w = formatB op x kk :=
  BitVec.eq_of_toNat_eq (h.trans (formatB_toNat op x kk).symm)

/-- A word is known by its number: format R. -/
theorem eq_formatR {w : Word} {op : BitVec 4} {x y : Reg} {n : BitVec 4}
    (h : w.toNat = op.toNat * 4096 + x.val * 256 + y.val * 16 + n.toNat) : w = formatR op x y n :=
  BitVec.eq_of_toNat_eq (h.trans (formatR_toNat op x y n).symm)

/-! ### The masks of the opcode table -/

theorem and_F000 (w : Word) : w &&& 0xF000#16 = formatA (w.extractLsb' 12 4) 0#12 := by
  apply BitVec.eq_of_getLsbD_eq
  intro i hi
  unfold formatA
  rw [BitVec.getLsbD_and]
  erw [BitVec.getLsbD_append]
  rw [BitVec.getLsbD_extractLsb']
  interval_cases i <;> simp

theorem and_F0FF (w : Word) : w &&& 0xF0FF#16 = formatB (w.extractLsb' 12 4) 0 (fieldKk w) := by
  apply BitVec.eq_of_getLsbD_eq
  intro i hi
  unfold formatB fieldKk
  rw [BitVec.getLsbD_and]
  erw [BitVec.getLsbD_append, BitVec.getLsbD_append]
  rw [BitVec.getLsbD_extractLsb', BitVec.getLsbD_extractLsb']
  interval_cases i <;> simp

theorem and_F00F (w : Word) : w &&& 0xF00F#16 = formatB (w.extractLsb' 12 4) 0 (fieldKk w &&& 0x0F#8) := by
  apply BitVec.eq_of_getLsbD_eq
  intro i hi
  unfold formatB fieldKk
  rw [BitVec.getLsbD_and]
  erw [BitVec.getLsbD_append, BitVec.getLsbD_append]
  rw [BitVec.getLsbD_and, BitVec.getLsbD_extractLsb', BitVec.getLsbD_extractLsb']
  interval_cases i <;> simp

/-- Mask F000 leaves op. -/
theorem and_F000_toNat (w : Word) : (w &&& 0xF000#16).toNat = fieldOp w * 4096 := by
  simp [and_F000, formatA_toNat, fieldOp]

/-- Mask F0FF leaves op and kk. -/
theorem and_F0FF_toNat (w : Word) : (w &&& 0xF0FF#16).toNat = fieldOp w * 4096 + (fieldKk w).toNat := by
  simp [and_F0FF, formatB_toNat, fieldOp]

/-- Mask F00F leaves op and n. -/
theorem and_F00F_toNat (w : Word) : (w &&& 0xF00F#16).toNat = fieldOp w * 4096 + (fieldN w).val := by
  have h : (fieldKk w &&& 0x0F#8).toNat = (fieldN w).val := by
    rw [BitVec.toNat_and, fieldKk_toNat, fieldN_val]
    show w.toNat % 256 &&& 2 ^ 4 - 1 = _
    rw [Nat.and_two_pow_sub_one_eq_mod]
    omega
  rw [and_F00F, formatB_toNat, h]
  simp [fieldOp]

theorem fieldOp_lt (w : Word) : fieldOp w < 16 := by
  have := w.isLt
  rw [fieldOp_eq]; omega

/-! ### When a word belongs to a row of the opcode table -/

theorem accepts_F000 (m : String) (v w : Word) :
    OpcodeRow.accepts ⟨m, v, 0xF000#16⟩ w = (decide (fieldOp w = v.toNat / 4096) && decide (v.toNat % 4096 = 0)) := by
  rw [Bool.eq_iff_iff]
  simp only [OpcodeRow.accepts, beq_iff_eq, ← BitVec.toNat_inj, and_F000_toNat, Bool.and_eq_true, decide_eq_true_eq]
  omega

theorem accepts_F00F (m : String) (v w : Word) :
    OpcodeRow.accepts ⟨m, v, 0xF00F#16⟩ w =
      (decide (fieldOp w = v.toNat / 4096) && decide ((fieldN w).val = v.toNat % 4096)) := by
  have := (fieldN w).isLt
  rw [Bool.eq_iff_iff]
  simp only [OpcodeRow.accepts, beq_iff_eq, ← BitVec.toNat_inj, and_F00F_toNat, Bool.and_eq_true, decide_eq_true_eq]
  omega

theorem accepts_F0FF (m : String) (v w : Word) :
    OpcodeRow.accepts ⟨m, v, 0xF0FF#16⟩ w =
      (decide (fieldOp w = v.toNat / 4096) && decide ((fieldKk w).toNat = v.toNat % 4096)) := by
  have := (fieldKk w).isLt
  rw [Bool.eq_iff_iff]
  simp only [OpcodeRow.accepts, beq_iff_eq, ← BitVec.toNat_inj, and_F0FF_toNat, Bool.and_eq_true, decide_eq_true_eq]
  omega

theorem accepts_FFFF (m : String) (v w : Word) : OpcodeRow.accepts ⟨m, v, 0xFFFF#16⟩ w = decide (w = v) := by
  have h : w &&& 0xFFFF#16 = w := BitVec.and_allOnes
  rw [Bool.eq_iff_iff]
  simp only [OpcodeRow.accepts, h, beq_iff_eq, decide_eq_true_eq]

/-! ### Bytes -/

theorem wordOfBytes_toNat (a b : Byte) : (wordOfBytes a b).toNat = a.toNat * 256 + b.toNat := by
  have h1 := b.isLt
  have h : (a ++ b : BitVec 16).toNat = a.toNat <<< 8 ||| b.toNat := BitVec.toNat_append a b
  rw [wordOfBytes, h, ← Nat.shiftLeft_add_eq_or_of_lt h1, Nat.shiftLeft_eq]

theorem firstByte_toNat (w : Word) : (firstByte w).toNat = w.toNat / 256 := by
  have := w.isLt
  simp [firstByte, Nat.shiftRight_eq_div_pow]
  omega

theorem secondByte_toNat (w : Word) : (secondByte w).toNat = w.toNat % 256 := by
  simp [secondByte]

/-- Storing a word high byte first and reading it back gives the word. -/
@[simp] theorem wordOfBytes_bytes (w : Word) : wordOfBytes (firstByte w) (secondByte w) = w := by
  apply BitVec.eq_of_toNat_eq
  rw [wordOfBytes_toNat, firstByte_toNat, secondByte_toNat]; omega

end Sys2Proof
end

