-- ==== Sys2Proof/Laws/Memory.lean ====
section
/-! SUPPORT. What each memory operation does, said once: a read after a write (20_memory.md R69), the canonical form,
and when a run of byte accesses leaves the address space (R62, R246). -/

namespace Sys2Proof.Machine

variable {g : GlyphTable} {m m' : Memory} {a b k : Nat} {v : Byte}

/-! ### One byte -/

theorem Memory.lookup_remove : Memory.lookup (Memory.remove m a) b = if b = a then none else Memory.lookup m b := by
  induction m with
  | nil => simp [Memory.remove, Memory.lookup]
  | cons c m ih =>
    by_cases hk : c.1 = a <;> by_cases hb : b = a <;> simp_all [Memory.remove, Memory.lookup, eq_comm]

theorem Memory.lookup_insert :
    Memory.lookup (Memory.insert m a v) b = if b = a then some v else Memory.lookup m b := by
  induction m with
  | nil =>
    by_cases hb : b = a
    · simp [Memory.insert, Memory.lookup, hb]
    · simp [Memory.insert, Memory.lookup, hb, Ne.symm hb]
  | cons c m ih =>
    obtain ⟨k, w⟩ := c
    rcases Nat.lt_trichotomy a k with h | h | h
    · by_cases hb : b = a
      · simp [Memory.insert, Memory.lookup, h, hb]
      · simp [Memory.insert, Memory.lookup, h, hb, Ne.symm hb]
    · subst h
      by_cases hb : b = a
      · simp [Memory.insert, Memory.lookup, hb]
      · simp [Memory.insert, Memory.lookup, hb, Ne.symm hb]
    · have h1 : ¬ a < k := by omega
      have h2 : a ≠ k := by omega
      by_cases hb : b = a
      · subst hb; simp [Memory.insert, Memory.lookup, h1, h2, h2.symm, ih]
      · simp [Memory.insert, Memory.lookup, h1, h2, ih, hb]

/-- A byte reads as what was last written to it, and every other byte as before. -/
@[simp] theorem Memory.read_write :
    Memory.read g (Memory.write g m a v) b = if b = a then v else Memory.read g m b := by
  unfold Memory.write
  by_cases hv : v = Memory.unlisted g a
  · by_cases hb : b = a <;> simp [Memory.read, hv, Memory.lookup_remove, hb]
  · by_cases hb : b = a <;> simp [Memory.read, hv, Memory.lookup_insert, hb]

theorem Memory.mem_remove {c : Host.Cell} (h : c ∈ Memory.remove m a) : c ∈ m := by
  induction m with
  | nil => exact h
  | cons d m ih =>
    by_cases hk : d.1 = a
    · rw [Memory.remove, if_pos hk] at h; exact List.mem_cons_of_mem _ (ih h)
    · rw [Memory.remove, if_neg hk] at h
      rcases List.mem_cons.mp h with h | h
      · exact h ▸ List.mem_cons_self
      · exact List.mem_cons_of_mem _ (ih h)

theorem Memory.mem_insert {c : Host.Cell} (h : c ∈ Memory.insert m a v) : c = (a, v) ∨ c ∈ m := by
  induction m with
  | nil => simpa [Memory.insert] using h
  | cons d m ih =>
    obtain ⟨k, w⟩ := d
    simp only [Memory.insert] at h
    split at h
    · simpa using h
    · split at h
      · rcases List.mem_cons.mp h with h | h
        · exact .inl h
        · exact .inr (List.mem_cons_of_mem _ h)
      · rcases List.mem_cons.mp h with h | h
        · exact .inr (h ▸ List.mem_cons_self)
        · rcases ih h with h | h
          · exact .inl h
          · exact .inr (List.mem_cons_of_mem _ h)

/-- The empty list is in canonical form. -/
theorem Memory.wf_nil : Memory.wf g [] := ⟨List.Pairwise.nil, by simp⟩

theorem Memory.wf_remove (h : Memory.wf g m) : Memory.wf g (Memory.remove m a) := by
  refine ⟨?_, fun c hc => h.2 c (Memory.mem_remove hc)⟩
  have hp := h.1
  clear h
  induction m with
  | nil => exact hp
  | cons d m ih =>
    rw [List.pairwise_cons] at hp
    by_cases hk : d.1 = a
    · rw [Memory.remove, if_pos hk]; exact ih hp.2
    · rw [Memory.remove, if_neg hk, List.pairwise_cons]
      exact ⟨fun c hc => hp.1 c (Memory.mem_remove hc), ih hp.2⟩

theorem Memory.wf_insert (h : Memory.wf g m) (ha : a < 4096) (hv : v ≠ Memory.unlisted g a) :
    Memory.wf g (Memory.insert m a v) := by
  refine ⟨?_, fun c hc => (Memory.mem_insert hc).elim (fun e => e ▸ ⟨ha, hv⟩) (h.2 c)⟩
  have hp := h.1
  clear h
  induction m with
  | nil => simp [Memory.insert]
  | cons d m ih =>
    obtain ⟨k, w⟩ := d
    rw [List.pairwise_cons] at hp
    simp only [Memory.insert]
    split
    · rename_i hlt
      refine List.pairwise_cons.mpr ⟨fun c hc => ?_, List.pairwise_cons.mpr hp⟩
      rcases List.mem_cons.mp hc with e | hc
      · subst e; exact hlt
      · exact Nat.lt_trans hlt (hp.1 c hc)
    · split
      · rename_i _ heq
        subst heq
        exact List.pairwise_cons.mpr hp
      · rename_i hge hne
        refine List.pairwise_cons.mpr ⟨fun c hc => ?_, ih hp.2⟩
        rcases Memory.mem_insert hc with e | hc
        · subst e; show k < a; omega
        · exact hp.1 c hc

/-- A write inside the address space keeps the canonical form. -/
theorem Memory.wf_write (h : Memory.wf g m) (ha : a < 4096) : Memory.wf g (Memory.write g m a v) := by
  unfold Memory.write
  split
  · exact Memory.wf_remove h
  · rename_i hv; exact Memory.wf_insert h ha hv

/-! ### Runs of bytes, ascending -/

theorem memRead_ok (s : State) (h : a ≤ 0xFFF) : memRead s a = .ok (s.byteAt a) := if_pos h

theorem memRead_error (s : State) (h : 0xFFF < a) : memRead s a = .error a := if_neg (by omega)

/-- Reading n bytes inside the address space gives them in order. -/
theorem readBytes_ok (s : State) {n : Nat} (h : ∀ r, r < n → a + r ≤ 0xFFF) :
    readBytes s a n = .ok ((List.range n).map (fun r => s.byteAt (a + r))) := by
  induction n generalizing a with
  | zero => rfl
  | succ n ih =>
    have h0 : a ≤ 0xFFF := h 0 (Nat.succ_pos n)
    have hr : ∀ r, r < n → a + 1 + r ≤ 0xFFF := fun r hr => by have := h (r + 1) (by omega); omega
    rw [readBytes, memRead_ok s h0]
    simp only [ih hr, List.range_succ_eq_map, List.map_cons, List.map_map]
    refine congrArg Except.ok (congrArg₂ _ rfl (List.map_congr_left fun r _ => ?_))
    show s.byteAt (a + 1 + r) = s.byteAt (a + (r + 1))
    congr 1; omega

/-- Reading past the end reports the first address above 0xFFF. -/
theorem readBytes_error (s : State) {n bad : Nat} (h1 : a ≤ bad) (h2 : bad < a + n) (h3 : 0xFFF < bad)
    (h4 : ∀ b, a ≤ b → b < bad → b ≤ 0xFFF) : readBytes s a n = .error bad := by
  induction n generalizing a with
  | zero => omega
  | succ n ih =>
    rw [readBytes]
    by_cases h : a = bad
    · rw [memRead_error s (by omega), h]
    · rw [memRead_ok s (h4 a (Nat.le_refl a) (by omega))]
      simp only [ih (a := a + 1) (by omega) (by omega) (fun b hb => h4 b (by omega))]

/-- Everything a run of reads can answer. -/
theorem readBytes_cases (s : State) (a n : Nat) :
    ((∀ r, r < n → a + r ≤ 0xFFF) ∧ readBytes s a n = .ok ((List.range n).map (fun r => s.byteAt (a + r)))) ∨
    ∃ bad, a ≤ bad ∧ bad < a + n ∧ 0xFFF < bad ∧ (∀ b, a ≤ b → b < bad → b ≤ 0xFFF) ∧
      readBytes s a n = .error bad := by
  by_cases h : ∀ r, r < n → a + r ≤ 0xFFF
  · exact .inl ⟨h, readBytes_ok s h⟩
  · refine .inr ⟨max a 0x1000, ?_⟩
    simp only [not_forall] at h
    obtain ⟨r, hr, hb⟩ := h
    have h1 : a ≤ max a 0x1000 := Nat.le_max_left ..
    have h2 : max a 0x1000 < a + n := by omega
    have h3 : 0xFFF < max a 0x1000 := by omega
    have h4 : ∀ b, a ≤ b → b < max a 0x1000 → b ≤ 0xFFF := by omega
    exact ⟨h1, h2, h3, h4, readBytes_error s h1 h2 h3 h4⟩

theorem memWrite_ok (h : a ≤ 0xFFF) : memWrite g m a v = .ok (Memory.write g m a v) := if_pos h

theorem memWrite_error (h : 0xFFF < a) : memWrite g m a v = .error a := if_neg (by omega)

/-- What a run of writes inside the address space does: the bytes stored read as written, every other byte reads as
before, and the canonical form is kept. -/
theorem writeBytes_ok {bs : List Byte} (h : ∀ r, r < bs.length → a + r ≤ 0xFFF) :
    ∃ m', writeBytes g m a bs = .ok m' ∧
      (∀ b, Memory.read g m' b = if a ≤ b then (bs[b - a]?).getD (Memory.read g m b) else Memory.read g m b) ∧
      (Memory.wf g m → Memory.wf g m') := by
  induction bs generalizing a m with
  | nil => exact ⟨m, rfl, fun b => by simp, id⟩
  | cons c bs ih =>
    have h0 : a ≤ 0xFFF := h 0 (by simp)
    have hr : ∀ r, r < bs.length → a + 1 + r ≤ 0xFFF := fun r hr => by
      have := h (r + 1) (by simpa using hr); omega
    obtain ⟨m', h1, h2, h3⟩ := ih (a := a + 1) (m := Memory.write g m a c) hr
    refine ⟨m', ?_, fun b => ?_, fun hw => h3 (Memory.wf_write hw (by omega))⟩
    · rw [writeBytes, memWrite_ok h0]; exact h1
    · rw [h2 b]
      rcases Nat.lt_trichotomy b a with hb | hb | hb
      · rw [if_neg (by omega), if_neg (by omega), Memory.read_write, if_neg (by omega)]
      · subst hb; rw [if_neg (by omega), if_pos (Nat.le_refl b)]; simp
      · have e : b - a = (b - (a + 1)) + 1 := by omega
        rw [if_pos (by omega), if_pos (by omega), Memory.read_write, if_neg (by omega), e, List.getElem?_cons_succ]

/-- Writing past the end reports the first address above 0xFFF, and no memory is answered. -/
theorem writeBytes_error {bs : List Byte} {bad : Nat} (h1 : a ≤ bad) (h2 : bad < a + bs.length) (h3 : 0xFFF < bad)
    (h4 : ∀ b, a ≤ b → b < bad → b ≤ 0xFFF) : writeBytes g m a bs = .error bad := by
  induction bs generalizing a m with
  | nil => simp at h2; omega
  | cons c bs ih =>
    rw [writeBytes]
    by_cases h : a = bad
    · rw [memWrite_error (by omega), h]
    · rw [memWrite_ok (h4 a (Nat.le_refl a) (by omega))]
      exact ih (by omega) (by simp at h2; omega) (fun b hb => h4 b (by omega))

/-- Everything a run of writes can answer. -/
theorem writeBytes_cases (g : GlyphTable) (m : Memory) (a : Nat) (bs : List Byte) :
    (∃ m', (∀ r, r < bs.length → a + r ≤ 0xFFF) ∧ writeBytes g m a bs = .ok m' ∧
      (∀ b, Memory.read g m' b = if a ≤ b then (bs[b - a]?).getD (Memory.read g m b) else Memory.read g m b) ∧
      (Memory.wf g m → Memory.wf g m')) ∨
    ∃ bad, a ≤ bad ∧ bad < a + bs.length ∧ 0xFFF < bad ∧ (∀ b, a ≤ b → b < bad → b ≤ 0xFFF) ∧
      writeBytes g m a bs = .error bad := by
  by_cases h : ∀ r, r < bs.length → a + r ≤ 0xFFF
  · obtain ⟨m', h1, h2, h3⟩ := writeBytes_ok (g := g) (m := m) h
    exact .inl ⟨m', h, h1, h2, h3⟩
  · refine .inr ⟨max a 0x1000, ?_⟩
    simp only [not_forall] at h
    obtain ⟨r, hr, hb⟩ := h
    have h1 : a ≤ max a 0x1000 := Nat.le_max_left ..
    have h2 : max a 0x1000 < a + bs.length := by omega
    have h3 : 0xFFF < max a 0x1000 := by omega
    have h4 : ∀ b, a ≤ b → b < max a 0x1000 → b ≤ 0xFFF := by omega
    exact ⟨h1, h2, h3, h4, writeBytes_error h1 h2 h3 h4⟩

/-! ### Fetch -/

theorem fetchWord_ok (s : State) (h : s.pc.toNat ≤ 0xFFE) :
    fetchWord s = .ok (wordOfBytes (s.byteAt s.pc.toNat) (s.byteAt (s.pc.toNat + 1))) := if_pos h

theorem fetchWord_error (s : State) (h : 0xFFE < s.pc.toNat) : fetchWord s = .error s.pc := if_neg (by omega)

end Sys2Proof.Machine
end

