-- ==== Sys2Proof/Laws/Operands.lean ====
section
/-! SUPPORT. What the operand forms, the return stack and the key scan give, said once. -/

namespace Sys2Proof.Machine

/-! ### Immediates -/

theorem zextAddr_toNat (nnn : Addr) : (zextAddr nnn).toNat = nnn.toNat := by
  have := nnn.isLt
  simp [zextAddr, BitVec.toNat_setWidth]
  omega

theorem zextByte_toNat (b : Byte) : (zextByte b).toNat = b.toNat := by
  have := b.isLt
  simp [zextByte, BitVec.toNat_setWidth]
  omega

/-- The sum of Bnnn never wraps (40_control_flow.md R124). -/
theorem zextAddr_add_zextByte_toNat (nnn : Addr) (b : Byte) :
    (zextAddr nnn + zextByte b).toNat = nnn.toNat + b.toNat := by
  have := nnn.isLt
  have := b.isLt
  rw [BitVec.toNat_add, zextAddr_toNat, zextByte_toNat]
  omega

/-- The glyph address is five times the digit, at full width (44_index_memory.md R202). -/
theorem glyphAddress_toNat (b : Byte) : (glyphAddress b).toNat = b.toNat * 5 := by
  have := b.isLt
  rw [glyphAddress, BitVec.toNat_mul, zextByte_toNat]
  exact Nat.mod_eq_of_lt (by show b.toNat * 5 < 2 ^ 16; omega)

/-! ### The register block -/

theorem State.regBlock_length (s : State) (x : Reg) : (s.regBlock x).length = x.val + 1 := by
  simp [State.regBlock]

theorem State.regBlock_getElem? (s : State) (x k : Reg) (h : k ≤ x) : (s.regBlock x)[k.val]? = some (s.reg k) := by
  have hk : k.val < x.val + 1 := Nat.lt_succ_of_le h
  rw [State.regBlock, List.getElem?_take_of_lt hk]
  simp [State.reg]

/-- What a block load leaves in each register. -/
theorem loadBlock_getElem (k : Nat) (bs : List Byte) (v : Vector Byte 16) (r : Nat) (hr : r < 16) :
    (loadBlock k bs v)[r] = if k ≤ r then (bs[r - k]?).getD v[r] else v[r] := by
  induction bs generalizing k v with
  | nil => simp [loadBlock]
  | cons b bs ih =>
    rw [loadBlock, ih]
    rcases Nat.lt_trichotomy r k with h | h | h
    · rw [if_neg (by omega), if_neg (by omega), Vector.getElem_setIfInBounds_ne hr (by omega)]
    · subst h
      rw [if_neg (by omega), if_pos (Nat.le_refl r)]
      simp
    · have e : r - k = (r - (k + 1)) + 1 := by omega
      rw [if_pos (by omega), if_pos (by omega), Vector.getElem_setIfInBounds_ne hr (by omega), e,
        List.getElem?_cons_succ]

/-! ### The digits of a byte (R203) -/

theorem bcdDigits_eq (b : Byte) :
    bcdDigits b = [BitVec.ofNat 8 (b.toNat / 100), BitVec.ofNat 8 (b.toNat / 10 % 10), BitVec.ofNat 8 (b.toNat % 10)] := by
  have := b.isLt
  have h1 : b / 100#8 = BitVec.ofNat 8 (b.toNat / 100) := by
    apply BitVec.eq_of_toNat_eq; simp; omega
  have h2 : b / 10#8 % 10#8 = BitVec.ofNat 8 (b.toNat / 10 % 10) := by
    apply BitVec.eq_of_toNat_eq; simp; omega
  have h3 : b % 10#8 = BitVec.ofNat 8 (b.toNat % 10) := by
    apply BitVec.eq_of_toNat_eq; simp; omega
  rw [bcdDigits, h1, h2, h3]

/-! ### The return stack (10_state.md R30) -/

theorem State.push_full (s : State) (a : Word) (h : s.sp = 16) : s.push a = none := by
  simp [State.push, h]

theorem State.push_room (s : State) (a : Word) (h : s.sp.val < 16) :
    s.push a = some (s.setStack (s.stk.set s.sp.val a) ⟨s.sp.val + 1, by omega⟩) := dif_pos h

/-- Everything Push can answer. -/
theorem State.push_cases (s : State) (a : Word) :
    (s.sp = 16 ∧ s.push a = none) ∨
    ∃ h : s.sp.val < 16, s.push a = some (s.setStack (s.stk.set s.sp.val a) ⟨s.sp.val + 1, by omega⟩) := by
  by_cases h : s.sp.val < 16
  · exact .inr ⟨h, s.push_room a h⟩
  · have hs : s.sp = 16 := Fin.ext (by have := s.sp.isLt; show s.sp.val = 16; omega)
    exact .inl ⟨hs, s.push_full a hs⟩

theorem State.pop_empty (s : State) (h : s.sp = 0) : s.pop = (0x0000#16, s) := by
  simp [State.pop, h]

theorem State.pop_some (s : State) (h : 0 < s.sp.val) :
    s.pop = (s.stk[s.sp.val - 1]'(by omega), s.setStack s.stk ⟨s.sp.val - 1, by omega⟩) := dif_pos h

/-! ### Keys -/

theorem State.keyNamed_some (s : State) (k : Byte) (h : k.toNat < 16) : s.keyNamed k = some s.key[k.toNat] := dif_pos h

theorem State.keyNamed_none (s : State) (k : Byte) (h : 0xF < k.toNat) : s.keyNamed k = none :=
  dif_neg (by omega)

/-- The scan finds the highest pressed key below n, or none is pressed. -/
theorem scanKeys_cases (key : Vector Bool 16) (n : Nat) (hn : n ≤ 16) :
    (∃ k : Fin 16, scanKeys key n hn = some k ∧ k.val < n ∧ key[k.val] = true ∧
      ∀ j (hj : j < 16), k.val < j → j < n → key[j] = false) ∨
    (scanKeys key n hn = none ∧ ∀ j (hj : j < 16), j < n → key[j] = false) := by
  induction n with
  | zero => exact .inr ⟨rfl, fun j hj h => absurd h (Nat.not_lt_zero j)⟩
  | succ n ih =>
    by_cases hk : key[n] = true
    · refine .inl ⟨⟨n, by omega⟩, by rw [scanKeys, if_pos hk], Nat.lt_succ_self n, hk, fun j hj h1 h2 => ?_⟩
      have : n < j := h1
      omega
    · have hf : key[n] = false := by simpa using hk
      have hs : scanKeys key (n + 1) hn = scanKeys key n (by omega) := by rw [scanKeys, if_neg hk]
      rcases ih (by omega) with ⟨k, h1, h2, h3, h4⟩ | ⟨h1, h2⟩
      · refine .inl ⟨k, hs.trans h1, by omega, h3, fun j hj hlt hle => ?_⟩
        by_cases e : j = n
        · subst e; exact hf
        · exact h4 j hj hlt (by omega)
      · refine .inr ⟨hs.trans h1, fun j hj hle => ?_⟩
        by_cases e : j = n
        · subst e; exact hf
        · exact h2 j hj (by omega)

/-- The key Fx0A finds: pressed, and no higher key is; or no key is pressed (45_keypad_timers.md R223). -/
theorem State.foundKey_cases (s : State) :
    (∃ k : Fin 16, s.foundKey = some k ∧ s.key[k.val] = true ∧ ∀ j : Fin 16, k < j → s.key[j.val] = false) ∨
    (s.foundKey = none ∧ ∀ j : Fin 16, s.key[j.val] = false) := by
  rcases scanKeys_cases s.key 16 (Nat.le_refl 16) with ⟨k, h1, _, h3, h4⟩ | ⟨h1, h2⟩
  · exact .inl ⟨k, h1, h3, fun j hj => h4 j.val j.isLt hj j.isLt⟩
  · exact .inr ⟨h1, fun j => h2 j.val j.isLt j.isLt⟩

end Sys2Proof.Machine
end

