-- ==== Sys2Proof/Laws/Exec.lean ====
section
/-! SUPPORT. Everything the instructions with more than one outcome can do, said once each; and fault entry. -/

namespace Sys2Proof.Machine

/-- A fault taken by an instruction is fault entry. -/
theorem takeFault_tookFault (record : FaultRecord) (s : State) :
    ∃ t, takeFault s.fetchedFrom record s = .next t ∧ TookFault record s t :=
  ⟨_, rfl, rfl, rfl, by constructor <;> intros <;> simp_all⟩

theorem execCall_cases (nnn : Addr) (s : State) :
    (s.sp = 16 ∧ exec (.call nnn) s = .next s) ∨
    ∃ h : s.sp.val < 16, exec (.call nnn) s =
      .next ((s.setStack (s.stk.set s.sp.val s.pc) ⟨s.sp.val + 1, by omega⟩).setPc (zextAddr nnn)) := by
  rcases s.push_cases s.pc with ⟨h, hp⟩ | ⟨h, hp⟩
  · exact .inl ⟨h, by simp only [exec, execCall, hp]⟩
  · exact .inr ⟨h, by simp only [exec, execCall, hp]⟩

theorem execRet_cases (s : State) :
    (s.sp = 0 ∧ exec .ret s = .next (s.setPc 0x0000#16)) ∨
    ∃ h : 0 < s.sp.val, exec .ret s =
      .next ((s.setStack s.stk ⟨s.sp.val - 1, by omega⟩).setPc (s.stk[s.sp.val - 1]'(by omega))) := by
  by_cases h : 0 < s.sp.val
  · exact .inr ⟨h, by simp only [exec, execRet, s.pop_some h]⟩
  · have h0 : s.sp = 0 := Fin.ext (show s.sp.val = 0 by omega)
    exact .inl ⟨h0, by simp only [exec, execRet, s.pop_empty h0]⟩

theorem execDrw_cases (x y : Reg) (n : RowCount) (s : State) :
    (∃ sprite, readBytes s s.index.toNat n.val = .ok sprite ∧ exec (.drw x y n) s =
      .next ((s.setScr (drawSprite (s.reg x) (s.reg y) sprite s.scr).1).setFlag
        (drawSprite (s.reg x) (s.reg y) sprite s.scr).2)) ∨
    ∃ addr, FirstOutOfRange s.index.toNat n.val addr ∧
      exec (.drw x y n) s = raiseDataRange (.drw x y n) addr s := by
  rcases readBytes_cases s s.index.toNat n.val with ⟨_, hr⟩ | ⟨bad, h1, h2, h3, h4, hr⟩
  · exact .inl ⟨_, hr, by simp only [exec, execDrw, hr]⟩
  · exact .inr ⟨bad, ⟨h1, h2, h3, h4⟩, by simp only [exec, execDrw, hr]⟩

theorem execLdB_cases (x : Reg) (s : State) :
    (∃ m, writeBytes s.config.glyphs s.mem s.index.toNat (bcdDigits (s.reg x)) = .ok m ∧
      exec (.ldB x) s = .next (s.setMem m)) ∨
    ∃ addr, FirstOutOfRange s.index.toNat 3 addr ∧ exec (.ldB x) s = raiseDataRange (.ldB x) addr s := by
  rcases writeBytes_cases s.config.glyphs s.mem s.index.toNat (bcdDigits (s.reg x)) with
    ⟨m, _, hr, _⟩ | ⟨bad, h1, h2, h3, h4, hr⟩
  · exact .inl ⟨m, hr, by simp only [exec, execLdB, hr]⟩
  · exact .inr ⟨bad, ⟨h1, h2, h3, h4⟩, by simp only [exec, execLdB, hr]⟩

theorem execLdMemStore_cases (x : Reg) (s : State) :
    (∃ m, writeBytes s.config.glyphs s.mem s.index.toNat (s.regBlock x) = .ok m ∧
      exec (.ldMemStore x) s = .next ((s.setMem m).advanceIndex x)) ∨
    ∃ addr, FirstOutOfRange s.index.toNat (x.val + 1) addr ∧
      exec (.ldMemStore x) s = raiseDataRange (.ldMemStore x) addr s := by
  rcases writeBytes_cases s.config.glyphs s.mem s.index.toNat (s.regBlock x) with
    ⟨m, _, hr, _⟩ | ⟨bad, h1, h2, h3, h4, hr⟩
  · exact .inl ⟨m, hr, by simp only [exec, execLdMemStore, hr]⟩
  · rw [State.regBlock_length] at h2
    exact .inr ⟨bad, ⟨h1, h2, h3, h4⟩, by simp only [exec, execLdMemStore, hr]⟩

theorem execLdMemLoad_cases (x : Reg) (s : State) :
    (∃ bs, readBytes s s.index.toNat (x.val + 1) = .ok bs ∧
      exec (.ldMemLoad x) s = .next ((s.setV (loadBlock 0 bs s.v)).advanceIndex x)) ∨
    ∃ addr, FirstOutOfRange s.index.toNat (x.val + 1) addr ∧
      exec (.ldMemLoad x) s = raiseDataRange (.ldMemLoad x) addr s := by
  rcases readBytes_cases s s.index.toNat (x.val + 1) with ⟨_, hr⟩ | ⟨bad, h1, h2, h3, h4, hr⟩
  · exact .inl ⟨_, hr, by simp only [exec, execLdMemLoad, hr]⟩
  · exact .inr ⟨bad, ⟨h1, h2, h3, h4⟩, by simp only [exec, execLdMemLoad, hr]⟩

theorem execSkp_cases (x : Reg) (s : State) :
    (∃ h : (s.reg x).toNat < 16, exec (.skp x) s = .next (s.skipIf s.key[(s.reg x).toNat])) ∨
    (0xF < (s.reg x).toNat ∧ exec (.skp x) s = raiseKeyRange (.skp x) (s.reg x) s) := by
  by_cases h : (s.reg x).toNat < 16
  · exact .inl ⟨h, by simp only [exec, execSkp, s.keyNamed_some _ h]⟩
  · exact .inr ⟨by omega, by simp only [exec, execSkp, s.keyNamed_none (s.reg x) (by omega)]⟩

theorem execSknp_cases (x : Reg) (s : State) :
    (∃ h : (s.reg x).toNat < 16, exec (.sknp x) s = .next (s.skipIf (!s.key[(s.reg x).toNat]))) ∨
    (0xF < (s.reg x).toNat ∧ exec (.sknp x) s = raiseKeyRange (.sknp x) (s.reg x) s) := by
  by_cases h : (s.reg x).toNat < 16
  · exact .inl ⟨h, by simp only [exec, execSknp, s.keyNamed_some _ h]⟩
  · exact .inr ⟨by omega, by simp only [exec, execSknp, s.keyNamed_none (s.reg x) (by omega)]⟩

theorem execLdVK_cases (x : Reg) (s : State) :
    (∃ k : Fin 16, s.key[k.val] = true ∧ (∀ j : Fin 16, k < j → s.key[j.val] = false) ∧
      exec (.ldVK x) s = .next (s.setReg x (BitVec.ofNat 8 k.val))) ∨
    ((∀ j : Fin 16, s.key[j.val] = false) ∧ exec (.ldVK x) s = .next (s.setPc (s.pc - 2#16))) := by
  rcases s.foundKey_cases with ⟨k, h1, h2, h3⟩ | ⟨h1, h2⟩
  · exact .inl ⟨k, h2, h3, by simp only [exec, execLdVK, h1]⟩
  · exact .inr ⟨h2, by simp only [exec, execLdVK, h1]⟩

end Sys2Proof.Machine
end

