-- ==== Sys2Proof/Laws/Flags.lean ====
section
/-! SUPPORT. The flags as numbers (43_alu.md R170, R178 to R182), and the two orders of a shift (R171). -/

namespace Sys2Proof.Machine

theorem flagByte_toNat (f : Bool) : (flagByte f).toNat = f.toNat := by cases f <;> rfl

/-- The carry is the exact sum divided by 256. -/
theorem carry_toNat (a b : Byte) : (flagByte (carry a b)).toNat = (a.toNat + b.toNat) / 256 := by
  have := a.isLt
  have := b.isLt
  rw [flagByte_toNat, carry]
  by_cases h : 255 < a.toNat + b.toNat
  · rw [decide_eq_true h, Bool.toNat_true]; omega
  · rw [decide_eq_false h, Bool.toNat_false]; omega

theorem notBorrow_of_le {d s : Byte} (h : s.toNat ≤ d.toNat) : flagByte (notBorrow d s) = 0x01#8 := by
  rw [notBorrow, decide_eq_true h]; rfl

theorem notBorrow_of_lt {d s : Byte} (h : d.toNat < s.toNat) : flagByte (notBorrow d s) = 0x00#8 := by
  rw [notBorrow, decide_eq_false (by omega)]; rfl

/-- The bit a right shift loses is the remainder modulo 2. -/
theorem outRight_toNat (b : Byte) : (flagByte (outRight b)).toNat = b.toNat % 2 := by
  rw [flagByte_toNat, outRight, BitVec.getLsbD, Nat.testBit_zero]
  rcases Nat.mod_two_eq_zero_or_one b.toNat with h | h <;> simp [h]

/-- The bit a left shift loses is the quotient by 128. -/
theorem outLeft_toNat (b : Byte) : (flagByte (outLeft b)).toNat = b.toNat / 128 := by
  have hb := b.isLt
  have hq : b.toNat / 128 = 0 ∨ b.toNat / 128 = 1 := by omega
  rw [flagByte_toNat, outLeft, BitVec.getLsbD, Nat.testBit_eq_decide_div_mod_eq]
  rcases hq with h | h <;> simp [h]

/-- Subtraction is exact subtraction modulo 256. -/
theorem sub_toNat_mod (a b : Byte) : ((a - b).toNat : Int) = (a.toNat - b.toNat : Int) % 256 := by
  have := a.isLt
  have := b.isLt
  rw [BitVec.toNat_sub]; omega

/-- For x ≠ F both orders of a shift give the same state (R171). -/
theorem State.shiftWithFlag_other (s : State) {x : Reg} (shifted : Byte → Byte) (f : Bool) (h : x ≠ flagReg) :
    s.shiftWithFlag x shifted f = (s.setReg flagReg (flagByte f)).setReg x (shifted (s.reg x)) := by
  unfold State.shiftWithFlag
  split
  · rw [State.setFlag_eq, State.reg_setReg_other _ h]
  · have hne : flagReg.val ≠ x.val := fun e => h (Fin.ext e.symm)
    rw [State.resultThenFlag_eq]
    simp only [State.setReg, State.setV]
    rw [Vector.set_comm _ _ (Ne.symm hne)]

/-- With x = F under text_order, VF is the flag shifted (R171). -/
theorem State.shiftWithFlag_vf_text (s : State) (shifted : Byte → Byte) (f : Bool)
    (h : s.config.vfOrder = .textOrder) : (s.shiftWithFlag flagReg shifted f).reg flagReg = shifted (flagByte f) := by
  unfold State.shiftWithFlag
  rw [h]
  simp [State.setFlag_eq]

/-- With x = F under flag_last, VF is the flag (R171). -/
theorem State.shiftWithFlag_vf_last (s : State) (shifted : Byte → Byte) (f : Bool)
    (h : s.config.vfOrder = .flagLast) : (s.shiftWithFlag flagReg shifted f).reg flagReg = flagByte f := by
  unfold State.shiftWithFlag
  rw [h]
  simp [State.resultThenFlag_eq]

end Sys2Proof.Machine
end

