-- ==== Sys2Proof/Laws/PerInstr.lean ====
section
/-! SUPPORT. One lemma per instruction: its word decodes to it (30_encoding.md R94, R95). -/

namespace Sys2Proof.Laws.WordDecodes

/-- The word of the instruction decodes to the instruction, every operand included. -/
def Statement (i : Instr) : Prop := decodeWord (encode i) = .ok i

theorem nop : Statement .nop := rfl

theorem cls : Statement .cls := rfl

theorem ret : Statement .ret := rfl

theorem jp (nnn : Addr) : Statement (.jp nnn) := by simp [Statement, decodeWord, encode]

theorem call (nnn : Addr) : Statement (.call nnn) := by simp [Statement, decodeWord, encode]

theorem seImm (x : Reg) (kk : Byte) : Statement (.seImm x kk) := by simp [Statement, decodeWord, encode]

theorem sneImm (x : Reg) (kk : Byte) : Statement (.sneImm x kk) := by simp [Statement, decodeWord, encode]

theorem seReg (x : Reg) (y : Reg) : Statement (.seReg x y) := by simp [Statement, decodeWord, encode]

theorem ldImm (x : Reg) (kk : Byte) : Statement (.ldImm x kk) := by simp [Statement, decodeWord, encode]

theorem addImm (x : Reg) (kk : Byte) : Statement (.addImm x kk) := by simp [Statement, decodeWord, encode]

theorem ldReg (x : Reg) (y : Reg) : Statement (.ldReg x y) := by simp [Statement, decodeWord, decodeOp8, encode]

theorem orReg (x : Reg) (y : Reg) : Statement (.orReg x y) := by simp [Statement, decodeWord, decodeOp8, encode]

theorem andReg (x : Reg) (y : Reg) : Statement (.andReg x y) := by simp [Statement, decodeWord, decodeOp8, encode]

theorem xorReg (x : Reg) (y : Reg) : Statement (.xorReg x y) := by simp [Statement, decodeWord, decodeOp8, encode]

theorem addReg (x : Reg) (y : Reg) : Statement (.addReg x y) := by simp [Statement, decodeWord, decodeOp8, encode]

theorem sub (x : Reg) (y : Reg) : Statement (.sub x y) := by simp [Statement, decodeWord, decodeOp8, encode]

theorem shr (x : Reg) (y : Reg) : Statement (.shr x y) := by simp [Statement, decodeWord, decodeOp8, encode]

theorem subn (x : Reg) (y : Reg) : Statement (.subn x y) := by simp [Statement, decodeWord, decodeOp8, encode]

theorem shl (x : Reg) (y : Reg) : Statement (.shl x y) := by simp [Statement, decodeWord, decodeOp8, encode]

theorem sneReg (x : Reg) (y : Reg) : Statement (.sneReg x y) := by simp [Statement, decodeWord, encode]

theorem ldI (nnn : Addr) : Statement (.ldI nnn) := by simp [Statement, decodeWord, encode]

theorem jpV0 (nnn : Addr) : Statement (.jpV0 nnn) := by simp [Statement, decodeWord, encode]

theorem rnd (x : Reg) (kk : Byte) : Statement (.rnd x kk) := by simp [Statement, decodeWord, encode]

theorem drw (x : Reg) (y : Reg) (n : RowCount) : Statement (.drw x y n) := by simp [Statement, decodeWord, encode]

theorem skp (x : Reg) : Statement (.skp x) := by simp [Statement, decodeWord, decodeOpE, encode]

theorem sknp (x : Reg) : Statement (.sknp x) := by simp [Statement, decodeWord, decodeOpE, encode]

theorem ldVDt (x : Reg) : Statement (.ldVDt x) := by simp [Statement, decodeWord, decodeOpF, encode]

theorem ldVK (x : Reg) : Statement (.ldVK x) := by simp [Statement, decodeWord, decodeOpF, encode]

theorem ldDtV (x : Reg) : Statement (.ldDtV x) := by simp [Statement, decodeWord, decodeOpF, encode]

theorem ldStV (x : Reg) : Statement (.ldStV x) := by simp [Statement, decodeWord, decodeOpF, encode]

theorem addI (x : Reg) : Statement (.addI x) := by simp [Statement, decodeWord, decodeOpF, encode]

theorem ldF (x : Reg) : Statement (.ldF x) := by simp [Statement, decodeWord, decodeOpF, encode]

theorem ldB (x : Reg) : Statement (.ldB x) := by simp [Statement, decodeWord, decodeOpF, encode]

theorem ldMemStore (x : Reg) : Statement (.ldMemStore x) := by simp [Statement, decodeWord, decodeOpF, encode]

theorem ldMemLoad (x : Reg) : Statement (.ldMemLoad x) := by simp [Statement, decodeWord, decodeOpF, encode]

end Sys2Proof.Laws.WordDecodes
end

