-- ==== Sys2Proof/Laws/Step.lean ====
section
/-! SUPPORT. What one step does, said once (30_encoding.md R91), and that a word placed at pc is what is fetched. -/

namespace Sys2Proof.Machine

theorem step_faulted {s : State} {f : FaultRecord} (h : s.fault = some f) : step s = .next s := by
  rw [step, h]

theorem step_fetchRange {s : State} (hf : s.fault = none) (h : 0xFFE < s.pc.toNat) :
    step s = takeFault s.pc (.fetchRange s.pc) s := by
  rw [step, hf]
  simp only [fetchWord_error s h]
  rfl

theorem step_decoded {s : State} {w : Word} {i : Instr} (hf : s.fault = none) (hw : fetchWord s = .ok w)
    (hd : decodeWord w = .ok i) : step s = exec i s.advancePc := by
  rw [step, hf]
  simp only [hw, hd]

theorem step_unknown {s : State} {w : Word} {e : DecodeError} (hf : s.fault = none) (hw : fetchWord s = .ok w)
    (hd : decodeWord w = .error e) : step s = .next s.advancePc := by
  rw [step, hf]
  simp only [hw, hd]
  rfl

/-- Everything a step can do: nothing in the faulted state, a fetch fault, one instruction, or a no-op. -/
theorem step_cases (s : State) :
    (s.fault ≠ none ∧ step s = .next s) ∨
    (s.fault = none ∧ 0xFFE < s.pc.toNat ∧ step s = takeFault s.pc (.fetchRange s.pc) s) ∨
    (s.fault = none ∧ s.pc.toNat ≤ 0xFFE ∧ ∃ w i, fetchWord s = .ok w ∧ decodeWord w = .ok i ∧
      step s = exec i s.advancePc) ∨
    (s.fault = none ∧ s.pc.toNat ≤ 0xFFE ∧ ∃ w e, fetchWord s = .ok w ∧ decodeWord w = .error e ∧
      step s = .next s.advancePc) := by
  cases hf : s.fault with
  | some f => exact .inl ⟨by simp, step_faulted hf⟩
  | none =>
    refine .inr ?_
    by_cases h : s.pc.toNat ≤ 0xFFE
    · have hw := fetchWord_ok s h
      cases hd : decodeWord (wordOfBytes (s.byteAt s.pc.toNat) (s.byteAt (s.pc.toNat + 1))) with
      | ok i => exact .inr (.inl ⟨rfl, h, _, i, hw, hd, step_decoded hf hw hd⟩)
      | error e => exact .inr (.inr ⟨rfl, h, _, e, hw, hd, step_unknown hf hw hd⟩)
    · exact .inl ⟨rfl, by omega, step_fetchRange hf (by omega)⟩

/-- Taking a fault changes pc and FAULT only. -/
theorem takeFault_eq (a : Word) (record : FaultRecord) (s : State) :
    takeFault a record s = .next { s with pc := a, fault := some record } := rfl

/-- A two-byte store at a reads back as the word it came from. -/
theorem fetchWord_withFetchWord (s : State) (w : Nat) (hw : w < 65536) (h : s.pc.toNat ≤ 0xFFE) :
    fetchWord (s.withFetchWord 16 w) = .ok (BitVec.ofNat 16 w) := by
  have hm : w % 2 ^ 16 = w := Nat.mod_eq_of_lt hw
  obtain ⟨m, h1, h2, _⟩ := writeBytes_ok (g := s.config.glyphs) (m := s.mem) (a := s.pc.toNat)
    (bs := [firstByte (BitVec.ofNat 16 w), secondByte (BitVec.ofNat 16 w)])
    (fun r hr => by simp only [List.length_cons, List.length_nil] at hr; omega)
  have hs : s.withFetchWord 16 w = s.setMem m := by
    unfold State.withFetchWord
    simp only [hm, h1]
  rw [hs, fetchWord_ok (s.setMem m) (by simpa using h)]
  simp only [State.setMem_byteAt, State.setMem_pc, h2]
  rw [if_pos (Nat.le_refl _), if_pos (Nat.le_succ _), Nat.sub_self, Nat.add_sub_cancel_left]
  exact congrArg Except.ok (wordOfBytes_bytes _)

end Sys2Proof.Machine
end

