-- ==== Sys2Proof/Laws/WellFormed.lean ====
section
/-! SUPPORT. The operand types hold every bound that Instr.wf checks. -/

namespace Sys2Proof

theorem regOk_of_type (x : Reg) : regOk x.val = true := decide_eq_true x.isLt

theorem byteOk_of_type (kk : Byte) : byteOk kk.toNat = true := decide_eq_true kk.isLt

theorem addrOk_of_type (nnn : Addr) : addrOk nnn.toNat = true := decide_eq_true nnn.isLt

theorem rowsOk_of_type (n : RowCount) : rowsOk n.val = true := decide_eq_true n.isLt

/-- Every term of Instr is well formed. -/
theorem Instr.wf_all (i : Instr) : i.wf = true := by
  cases i <;> simp [Instr.wf, regOk_of_type, byteOk_of_type, addrOk_of_type, rowsOk_of_type]

end Sys2Proof
end

