-- ==== Sys2Proof/Tests/Slice0.lean ====
section
/-! SUPPORT. Tests of the model: ill-formed operands are refused; a word of every row, written out from the encodings of
30_encoding.md R95, decodes; single steps against the vectors of 95_test_vectors.md (named by their ids there); and a
witness for the hypotheses of every statement that has any. -/

namespace Sys2Proof.Tests

open Sys2Proof Sys2Proof.Machine

/-! ### WellFormed refuses what a field cannot hold -/

theorem test_wf_refuses_register_16 : regOk 16 = false ∧ regOk 15 = true := by decide
theorem test_wf_refuses_byte_256 : byteOk 256 = false ∧ byteOk 255 = true := by decide
theorem test_wf_refuses_address_4096 : addrOk 4096 = false ∧ addrOk 4095 = true := by decide
theorem test_wf_refuses_rows_16 : rowsOk 16 = false ∧ rowsOk 15 = true := by decide
theorem test_wf_refuses_key_16 : (HostOp.setKey 16).wf = false ∧ (HostOp.setKey 15).wf = true := by decide
theorem test_wf_refuses_long_load (bytes : List Byte) (h : bytes.length = 3585) : (HostOp.load bytes).wf = false := by
  simp [HostOp.wf, maxLoad, h]

/-! ### A word of every row (30_encoding.md R94, R95) -/

theorem test_decode_nop : decodeWord 0b0000000000000000#16 = .ok .nop := by decide
theorem test_decode_cls : decodeWord 0b0000000011100000#16 = .ok .cls := by decide
theorem test_decode_ret : decodeWord 0b0000000011101110#16 = .ok .ret := by decide
theorem test_decode_jp : decodeWord 0b0001001000110100#16 = .ok (.jp 0x234#12) := by decide
theorem test_decode_call : decodeWord 0b0010111111111110#16 = .ok (.call 0xFFE#12) := by decide
theorem test_decode_seImm : decodeWord 0b0011001101000010#16 = .ok (.seImm 3 0x42#8) := by decide
theorem test_decode_sneImm : decodeWord 0b0100001101000010#16 = .ok (.sneImm 3 0x42#8) := by decide
theorem test_decode_seReg : decodeWord 0b0101000100100000#16 = .ok (.seReg 1 2) := by decide
theorem test_decode_ldImm : decodeWord 0b0110101000101111#16 = .ok (.ldImm 10 0x2F#8) := by decide
theorem test_decode_addImm : decodeWord 0b0111101000000010#16 = .ok (.addImm 10 0x02#8) := by decide
theorem test_decode_ldReg : decodeWord 0b1000000100100000#16 = .ok (.ldReg 1 2) := by decide
theorem test_decode_orReg : decodeWord 0b1000000100100001#16 = .ok (.orReg 1 2) := by decide
theorem test_decode_andReg : decodeWord 0b1000000100100010#16 = .ok (.andReg 1 2) := by decide
theorem test_decode_xorReg : decodeWord 0b1000000100100011#16 = .ok (.xorReg 1 2) := by decide
theorem test_decode_addReg : decodeWord 0b1000000100100100#16 = .ok (.addReg 1 2) := by decide
theorem test_decode_sub : decodeWord 0b1000000100100101#16 = .ok (.sub 1 2) := by decide
theorem test_decode_shr : decodeWord 0b1000000111110110#16 = .ok (.shr 1 15) := by decide
theorem test_decode_subn : decodeWord 0b1000000100100111#16 = .ok (.subn 1 2) := by decide
theorem test_decode_shl : decodeWord 0b1000000111111110#16 = .ok (.shl 1 15) := by decide
theorem test_decode_sneReg : decodeWord 0b1001000100100000#16 = .ok (.sneReg 1 2) := by decide
theorem test_decode_ldI : decodeWord 0b1010001011110000#16 = .ok (.ldI 0x2F0#12) := by decide
theorem test_decode_jpV0 : decodeWord 0b1011001100000000#16 = .ok (.jpV0 0x300#12) := by decide
theorem test_decode_rnd : decodeWord 0b1100001100001111#16 = .ok (.rnd 3 0x0F#8) := by decide
theorem test_decode_drw : decodeWord 0b1101000000010101#16 = .ok (.drw 0 1 5) := by decide
theorem test_decode_skp : decodeWord 0b1110010110011110#16 = .ok (.skp 5) := by decide
theorem test_decode_sknp : decodeWord 0b1110010110100001#16 = .ok (.sknp 5) := by decide
theorem test_decode_ldVDt : decodeWord 0b1111001100000111#16 = .ok (.ldVDt 3) := by decide
theorem test_decode_ldVK : decodeWord 0b1111001100001010#16 = .ok (.ldVK 3) := by decide
theorem test_decode_ldDtV : decodeWord 0b1111001100010101#16 = .ok (.ldDtV 3) := by decide
theorem test_decode_ldStV : decodeWord 0b1111001100011000#16 = .ok (.ldStV 3) := by decide
theorem test_decode_addI : decodeWord 0b1111001000011110#16 = .ok (.addI 2) := by decide
theorem test_decode_ldF : decodeWord 0b1111010000101001#16 = .ok (.ldF 4) := by decide
theorem test_decode_ldB : decodeWord 0b1111000100110011#16 = .ok (.ldB 1) := by decide
theorem test_decode_ldMemStore : decodeWord 0b1111001001010101#16 = .ok (.ldMemStore 2) := by decide
theorem test_decode_ldMemLoad : decodeWord 0b1111001001100101#16 = .ok (.ldMemLoad 2) := by decide

/-- R99, R100: words next to a row's words that match no row (UN1 to UN6). -/
theorem test_decode_unknown :
    decodeWord 0x0123#16 = .error (.unknownWord 0x0123#16) ∧ decodeWord 0x5121#16 = .error (.unknownWord 0x5121#16) ∧
    decodeWord 0x8128#16 = .error (.unknownWord 0x8128#16) ∧ decodeWord 0xE1FF#16 = .error (.unknownWord 0xE1FF#16) ∧
    decodeWord 0xF1FF#16 = .error (.unknownWord 0xF1FF#16) ∧ decodeWord 0x00E1#16 = .error (.unknownWord 0x00E1#16) := by
  decide

/-- R63: the byte at the lower address is the high byte. -/
theorem test_decode_big_endian : decode [0x6A#8, 0x2F#8, 0x77#8] = .ok (.ldImm 10 0x2F#8, [0x77#8]) := by decide

/-! ### Single steps -/

/-- The operation answers a next state of which the check holds. -/
def answers (r : Result) (check : State → Bool) : Bool :=
  match r with
  | .next t => check t
  | .fault _ => false
  | .refused _ => false

/-- One step of the reset state with the word at pc, after the set-up. -/
def stepOf (w : Nat) (setUp : State → State) : Result := step ((setUp State.reset).withFetchWord 16 w)

/-- One byte put into memory. -/
def poke (a : Nat) (b : Byte) (s : State) : State := s.setMem (Memory.write s.config.glyphs s.mem a b)

/-- The pixels of a range are all set. -/
def lit (s : State) (lo n : Nat) : Bool := (List.range n).all (fun k => Screen.pixel s.scr (lo + k))

/-- One pixel put on the screen. -/
def light (p : Nat) (s : State) : State := s.setScr (Screen.flip s.scr p)

/-- The machine with VF_ORDER = flag_last. -/
def flagLast (s : State) : State := { s with config := { s.config with vfOrder := .flagLast } }

theorem test_CF1_nop : answers (stepOf 0x0000 id) (fun t => t.pc == 0x202#16) = true := by decide
theorem test_CF2_ret : answers (stepOf 0x00EE (fun s => s.setStack (s.stk.set 0 0x206#16) 1))
    (fun t => t.pc == 0x206#16 && t.sp == 0) = true := by decide
theorem test_CF3_ret_underflow : answers (stepOf 0x00EE id) (fun t => t.pc == 0x000#16 && t.sp == 0) = true := by decide
theorem test_CF4_jp : answers (stepOf 0x1234 id) (fun t => t.pc == 0x234#16) = true := by decide
theorem test_CF6_call : answers (stepOf 0x2300 id)
    (fun t => t.pc == 0x300#16 && t.sp == 1 && t.stk[0] == 0x202#16) = true := by decide
theorem test_CF7_call_dropped : answers (stepOf 0x2300 (fun s => s.setStack (Vector.replicate 16 0x111#16) 16))
    (fun t => t.pc == 0x202#16 && t.sp == 16 && t.stk == Vector.replicate 16 0x111#16) = true := by decide
theorem test_CF8_jpV0 : answers (stepOf 0xB300 (fun s => s.setReg 0 0x10#8)) (fun t => t.pc == 0x310#16) = true := by
  decide
theorem test_CF9_jpV0_past_the_end : answers (stepOf 0xBFFF (fun s => s.setReg 0 0xFF#8))
    (fun t => t.pc == 0x10FE#16) = true := by decide

theorem test_SK1_seImm : answers (stepOf 0x3342 (fun s => s.setReg 3 0x42#8)) (fun t => t.pc == 0x204#16) = true := by
  decide
theorem test_SK3_sneImm : answers (stepOf 0x4342 (fun s => s.setReg 3 0x42#8)) (fun t => t.pc == 0x202#16) = true := by
  decide
theorem test_SK6_seReg : answers (stepOf 0x5120 (fun s => (s.setReg 1 0x07#8).setReg 2 0x08#8))
    (fun t => t.pc == 0x202#16) = true := by decide
theorem test_SK7_sneReg : answers (stepOf 0x9120 (fun s => (s.setReg 1 0x07#8).setReg 2 0x08#8))
    (fun t => t.pc == 0x204#16) = true := by decide
theorem test_SK10_skip_at_the_end : answers (stepOf 0x3342 (fun s => (s.setReg 3 0x42#8).setPc 0xFFC#16))
    (fun t => t.pc == 0x1000#16) = true := by decide

theorem test_AL1_ldImm : answers (stepOf 0x6A2F id) (fun t => t.reg 10 == 0x2F#8) = true := by decide
theorem test_AL2_addImm : answers (stepOf 0x7A02 (fun s => s.setReg 10 0xFF#8))
    (fun t => t.reg 10 == 0x01#8 && t.reg 15 == 0x00#8) = true := by decide
theorem test_AL4_ldReg : answers (stepOf 0x8120 (fun s => s.setReg 2 0x09#8)) (fun t => t.reg 1 == 0x09#8) = true := by
  decide
theorem test_AL5_or : answers (stepOf 0x8121 (fun s => ((s.setReg 1 0x0C#8).setReg 2 0x0A#8).setReg 15 0x55#8))
    (fun t => t.reg 1 == 0x0E#8 && t.reg 15 == 0x55#8) = true := by decide
theorem test_AL6_and : answers (stepOf 0x8122 (fun s => (s.setReg 1 0x0C#8).setReg 2 0x0A#8))
    (fun t => t.reg 1 == 0x08#8) = true := by decide
theorem test_AL7_xor : answers (stepOf 0x8123 (fun s => (s.setReg 1 0x0C#8).setReg 2 0x0A#8))
    (fun t => t.reg 1 == 0x06#8) = true := by decide
theorem test_AL9_addReg : answers (stepOf 0x8124 (fun s => (s.setReg 1 0xFF#8).setReg 2 0x01#8))
    (fun t => t.reg 1 == 0x00#8 && t.reg 15 == 0x01#8) = true := by decide
theorem test_AL21_addReg_vf : answers (stepOf 0x8F14 (fun s => (s.setReg 15 0xF0#8).setReg 1 0x20#8))
    (fun t => t.reg 15 == 0x01#8) = true := by decide
theorem test_AL13_sub : answers (stepOf 0x8125 (fun s => (s.setReg 1 0x03#8).setReg 2 0x05#8))
    (fun t => t.reg 1 == 0xFE#8 && t.reg 15 == 0x00#8) = true := by decide
theorem test_AL14_sub_equal : answers (stepOf 0x8125 (fun s => (s.setReg 1 0x07#8).setReg 2 0x07#8))
    (fun t => t.reg 1 == 0x00#8 && t.reg 15 == 0x01#8) = true := by decide
theorem test_AL16_shr : answers (stepOf 0x81F6 (fun s => s.setReg 1 0x05#8))
    (fun t => t.reg 1 == 0x02#8 && t.reg 15 == 0x01#8) = true := by decide
theorem test_AL23_AL24_shr_vf :
    answers (stepOf 0x8F06 (fun s => s.setReg 15 0x0F#8)) (fun t => t.reg 15 == 0x00#8) = true ∧
    answers (stepOf 0x8F06 (fun s => (flagLast s).setReg 15 0x0F#8)) (fun t => t.reg 15 == 0x01#8) = true := by decide
theorem test_AL17_subn : answers (stepOf 0x8127 (fun s => (s.setReg 1 0x03#8).setReg 2 0x05#8))
    (fun t => t.reg 1 == 0x02#8 && t.reg 15 == 0x01#8) = true := by decide
theorem test_AL18_subn_borrow : answers (stepOf 0x8127 (fun s => (s.setReg 1 0x05#8).setReg 2 0x03#8))
    (fun t => t.reg 1 == 0xFE#8 && t.reg 15 == 0x00#8) = true := by decide
theorem test_AL19_shl : answers (stepOf 0x810E (fun s => s.setReg 1 0x81#8))
    (fun t => t.reg 1 == 0x02#8 && t.reg 15 == 0x01#8) = true := by decide
theorem test_AL25_AL26_shl_vf :
    answers (stepOf 0x8F0E (fun s => s.setReg 15 0x81#8)) (fun t => t.reg 15 == 0x02#8) = true ∧
    answers (stepOf 0x8F0E (fun s => (flagLast s).setReg 15 0x81#8)) (fun t => t.reg 15 == 0x01#8) = true := by decide
/-- AL29: whatever byte is drawn. -/
theorem test_AL29_rnd_zero_mask : ∃ t, exec (.rnd 3 0x00#8) State.reset = .next t ∧ t.reg 3 = 0x00#8 :=
  ⟨(State.reset.setReg 3 (Config.rand8 0 &&& 0x00#8)).setRandCount 1, rfl, by simp⟩

theorem test_IX1_ldI : answers (stepOf 0xA2F0 id) (fun t => t.index == 0x2F0#16) = true := by decide
theorem test_IX3_addI : answers (stepOf 0xF21E (fun s => (s.setIndex 0xFFF#16).setReg 2 0x01#8))
    (fun t => t.index == 0x1000#16 && t.reg 15 == 0x00#8) = true := by decide
theorem test_IX4_addI_wraps : answers (stepOf 0xF21E (fun s => (s.setIndex 0xFFFF#16).setReg 2 0x01#8))
    (fun t => t.index == 0x0000#16) = true := by decide
theorem test_IX5_ldF : answers (stepOf 0xF429 (fun s => s.setReg 4 0x0A#8)) (fun t => t.index == 0x032#16) = true := by
  decide
theorem test_IX7_ldF_full_width : answers (stepOf 0xF429 (fun s => s.setReg 4 0xFF#8))
    (fun t => t.index == 0x4FB#16) = true := by decide
theorem test_IX8_ldB : answers (stepOf 0xF133 (fun s => (s.setReg 1 0xFE#8).setIndex 0x300#16))
    (fun t => t.byteAt 0x300 == 0x02#8 && t.byteAt 0x301 == 0x05#8 && t.byteAt 0x302 == 0x04#8 && t.index == 0x300#16)
      = true := by decide
theorem test_IX10_ldB_out_of_range : answers (stepOf 0xF133 (fun s => (s.setReg 1 0x80#8).setIndex 0xFFE#16))
    (fun t => t.fault == some (.dataRange 0x200#16 0xF133#16 0x1000) && t.pc == 0x200#16 && t.byteAt 0xFFE == 0x00#8)
      = true := by decide
theorem test_IX11_ldMemStore :
    answers (stepOf 0xF255 (fun s => (((s.setReg 0 0x01#8).setReg 1 0x02#8).setReg 2 0x03#8).setIndex 0x300#16))
      (fun t => t.byteAt 0x300 == 0x01#8 && t.byteAt 0x301 == 0x02#8 && t.byteAt 0x302 == 0x03#8 &&
        t.byteAt 0x303 == 0x00#8 && t.index == 0x303#16) = true := by decide
theorem test_IX13_ldMemStore_out_of_range :
    answers (stepOf 0xF155 (fun s => ((s.setReg 0 0x01#8).setReg 1 0x02#8).setIndex 0xFFF#16))
      (fun t => t.fault == some (.dataRange 0x200#16 0xF155#16 0x1000) && t.pc == 0x200#16 && t.index == 0xFFF#16 &&
        t.byteAt 0xFFF == 0x00#8) = true := by decide
theorem test_IX14_ldMemLoad :
    answers (stepOf 0xF265 (fun s => (poke 0x302 0x04#8 (poke 0x301 0x05#8 (poke 0x300 0x02#8 s))).setIndex 0x300#16))
      (fun t => t.reg 0 == 0x02#8 && t.reg 1 == 0x05#8 && t.reg 2 == 0x04#8 && t.index == 0x303#16) = true := by decide
theorem test_IX16_ldMemLoad_out_of_range : answers (stepOf 0xFF65 (fun s => s.setIndex 0xFF1#16))
    (fun t => t.fault == some (.dataRange 0x200#16 0xFF65#16 0x1000) && t.pc == 0x200#16) = true := by decide

theorem test_DP0_cls : answers (stepOf 0x00E0 (fun s => light 2047 (light 100 (light 0 s))))
    (fun t => t.scr == Screen.clear) = true := by decide
theorem test_DP4_drw_wraps_to_the_next_row :
    answers (stepOf 0xD011 (fun s => ((poke 0x300 0xFF#8 s).setIndex 0x300#16).setReg 0 0x3F#8))
      (fun t => lit t 63 8 && !Screen.pixel t.scr 71 && !Screen.pixel t.scr 0 && t.reg 15 == 0x00#8) = true := by decide
/-- DP2 (collision) and DP10 (the index is exact: 255 + 7 is column 6 of row 4). -/
theorem test_DP2_DP10_drw :
    answers (stepOf 0xD011 (fun s => light 133 ((((poke 0x300 0x80#8 s).setIndex 0x300#16).setReg 0 0x05#8).setReg 1 0x02#8)))
      (fun t => !Screen.pixel t.scr 133 && t.reg 15 == 0x01#8) = true ∧
    answers (stepOf 0xD011 (fun s => ((poke 0x300 0x01#8 s).setIndex 0x300#16).setReg 0 0xFF#8))
      (fun t => Screen.pixel t.scr 262 && !Screen.pixel t.scr 6) = true := by decide

theorem test_KT1_skp : answers (stepOf 0xE59E (fun s => (s.setReg 5 0x03#8).setKey (s.key.set 3 true)))
    (fun t => t.pc == 0x204#16) = true := by decide
theorem test_KT5_skp_out_of_range : answers (stepOf 0xE59E (fun s => s.setReg 5 0x10#8))
    (fun t => t.pc == 0x200#16 && t.fault == some (.keyRange 0x200#16 0xE59E#16 0x10#8)) = true := by decide
theorem test_KT3_sknp : answers (stepOf 0xE5A1 (fun s => s.setReg 5 0x03#8)) (fun t => t.pc == 0x204#16) = true := by
  decide
theorem test_KT6_sknp_out_of_range : answers (stepOf 0xE5A1 (fun s => s.setReg 5 0x10#8))
    (fun t => t.pc == 0x200#16 && t.fault == some (.keyRange 0x200#16 0xE5A1#16 0x10#8)) = true := by decide
theorem test_KT7_ldVDt : answers (stepOf 0xF307 (fun s => s.setDt 0x3C#8)) (fun t => t.reg 3 == 0x3C#8) = true := by
  decide
theorem test_KT8_ldVK_waits : answers (stepOf 0xF30A id) (fun t => t.pc == 0x200#16 && t.reg 3 == 0x00#8) = true := by
  decide
theorem test_KT9_ldVK_highest : answers (stepOf 0xF30A (fun s => s.setKey ((s.key.set 2 true).set 9 true)))
    (fun t => t.pc == 0x202#16 && t.reg 3 == 0x09#8) = true := by decide
theorem test_KT10_ldDtV : answers (stepOf 0xF015 (fun s => s.setReg 0 0x3C#8)) (fun t => t.dt == 0x3C#8) = true := by
  decide
theorem test_KT11_ldStV : answers (stepOf 0xF018 (fun s => s.setReg 0 0x05#8)) (fun t => t.st == 0x05#8) = true := by
  decide

theorem test_UN2_unknown_word : answers (stepOf 0x5121 id) (fun t => t.pc == 0x202#16 && t.fault == none) = true := by
  decide
theorem test_FH1_last_fetch : answers (stepOf 0x0000 (fun s => s.setPc 0xFFE#16)) (fun t => t.pc == 0x1000#16) = true := by
  decide
theorem test_FH2_fetch_out_of_range : answers (step (State.reset.setPc 0xFFF#16))
    (fun t => t.pc == 0xFFF#16 && t.fault == some (.fetchRange 0xFFF#16)) = true := by decide

/-- Program P1's bytes, two of them: LOAD puts them at 0x200, and the first step runs them (R251, log 21). -/
theorem test_load_then_step :
    answers (step (afterOp (.load [0x6A#8, 0xFE#8]) State.reset)) (fun t => t.reg 10 == 0xFE#8) = true := by decide
theorem test_FH8_tick : answers (hostOp .tick (State.reset.setSt 0x03#8))
    (fun t => t.dt == 0x00#8 && t.st == 0x02#8) = true := by decide
theorem test_FH10_setKey_16_refused : hostOp (.setKey 16) State.reset = .refused (.keyOutOfRange 16) := rfl
theorem test_FH11_clearKeys : answers (hostOp .clearKeys (State.reset.setKey ((State.reset.key.set 2 true).set 9 true)))
    (fun t => t.key == Vector.replicate 16 false) = true := by decide

/-! ### Witnesses: states and operands that meet the hypotheses of each statement, each clause at the ends of its range -/

/-- The reset state with pc and I elsewhere. -/
def at_ (pc index : Word) : State := (State.reset.setPc pc).setIndex index

/-- The reset state with the stack filled to a depth. -/
def deep (sp : Fin 17) : State := State.reset.setStack (Vector.replicate 16 0x1000#16) sp

theorem witness_NopOnlyAdvancesPc : ∀ s ∈ [State.reset, at_ 0xFFE#16 0#16],
    s.fault = none ∧ s.pc.toNat ≤ 0xFFE ∧ s.byteAt s.pc.toNat = 0x00#8 ∧ s.byteAt (s.pc.toNat + 1) = 0x00#8 := by decide

theorem witness_RetPopsReturnAddress :
    (deep 1).sp.val = (0 : Fin 16).val + 1 ∧ (deep 16).sp.val = (15 : Fin 16).val + 1 ∧ (deep 0).sp = 0 := by decide

theorem witness_CallPushesOrIsDropped :
    (deep 0).sp.val = (0 : Fin 16).val ∧ (deep 15).sp.val = (15 : Fin 16).val ∧ (deep 16).sp = 16 := by decide

theorem witness_ReturnUndoesCall : (deep 0).sp.val < 16 ∧ (deep 15).sp.val < 16 := by decide

/-- In range at both ends: one row at 0xFFF, fifteen rows up to 0xFFF, no row with I at its largest. -/
theorem witness_DrwFlipsCoveredPixels_range :
    (∀ r, r < (1 : RowCount).val → (at_ 0x200#16 0xFFF#16).index.toNat + r ≤ 0xFFF) ∧
    (∀ r, r < (15 : RowCount).val → (at_ 0x200#16 0xFF1#16).index.toNat + r ≤ 0xFFF) ∧
    ∀ r, r < (0 : RowCount).val → (at_ 0x200#16 0xFFFF#16).index.toNat + r ≤ 0xFFF := by
  refine ⟨fun r hr => ?_, fun r hr => ?_, fun r hr => absurd hr (Nat.not_lt_zero r)⟩
  · have : r < 1 := hr
    show 0xFFF + r ≤ 0xFFF; omega
  · have : r < 15 := hr
    show 0xFF1 + r ≤ 0xFFF; omega

/-- The first glyph byte, F0, drawn at (0, 0) covers pixels 0 to 3. -/
theorem witness_DrwFlipsCoveredPixels_covered : SpriteCovers State.reset 0 0 1 0 ∧ SpriteCovers State.reset 0 0 1 3 :=
  ⟨⟨0, 0, by decide, by decide, by decide, by decide⟩, ⟨0, 3, by decide, by decide, by decide, by decide⟩⟩

/-- Bit 3 of F0 is clear, so pixel 4 is not covered; and with no row nothing is. -/
theorem witness_DrwFlipsCoveredPixels_uncovered :
    ¬ SpriteCovers State.reset 0 0 1 4 ∧ ¬ SpriteCovers State.reset 0 0 0 2047 :=
  have clear : ∀ r, r < 1 → ∀ c, c < 8 → (State.reset.byteAt (0 + r)).getLsbD (7 - c) = true →
      ¬ 4 = (0 + c + (0 + r) * 64) % 2048 := by decide
  ⟨fun ⟨r, c, hr, hc, hb, hp⟩ => clear r hr c hc hb hp, fun ⟨r, _, hr, _⟩ => absurd hr (Nat.not_lt_zero r)⟩

theorem witness_DrwFlipsCoveredPixels_collision :
    (∃ p, SpriteCovers (light 0 State.reset) 0 0 1 p ∧ Screen.pixel (light 0 State.reset).scr p = true) ∧
    ¬ ∃ p, SpriteCovers (light 0 State.reset) 0 0 0 p ∧ Screen.pixel (light 0 State.reset).scr p = true :=
  ⟨⟨0, ⟨0, 0, by decide, by decide, by decide, by decide⟩, by decide⟩,
    fun ⟨_, ⟨r, _, hr, _⟩, _⟩ => absurd hr (Nat.not_lt_zero r)⟩

/-- A draw that reads VF, and one that does not; a covered pixel that was clear, and none. -/
theorem witness_DrawingTwiceRestoresScreen :
    (((15 : Reg) = 15 ∨ (0 : Reg) = 15) → (0x00#8 : Byte) = State.reset.reg 15) ∧
    (((0 : Reg) = 15 ∨ (1 : Reg) = 15) → (0xAB#8 : Byte) = State.reset.reg 15) ∧
    (∀ r, r < (1 : RowCount).val → State.reset.index.toNat + r ≤ 0xFFF) ∧
    (∃ p, SpriteCovers State.reset 0 0 1 p ∧ Screen.pixel State.reset.scr p = false) ∧
    ¬ ∃ p, SpriteCovers State.reset 0 0 0 p ∧ Screen.pixel State.reset.scr p = false :=
  ⟨by decide, by decide, by decide, ⟨0, ⟨0, 0, by decide, by decide, by decide, by decide⟩, by decide⟩,
    fun ⟨_, ⟨r, _, hr, _⟩, _⟩ => absurd hr (Nat.not_lt_zero r)⟩

/-- The skips on an immediate: equal and different, at the ends of the byte. -/
theorem witness_SeImmSkipsOnEqual : (State.reset.setReg 15 0xFF#8).reg 15 = 0xFF#8 ∧ State.reset.reg 0 ≠ 0xFF#8 := by
  decide

theorem witness_SneImmSkipsOnDifferent : State.reset.reg 0 ≠ 0xFF#8 ∧ State.reset.reg 0 = 0x00#8 := by decide

theorem witness_SeRegSkipsOnEqual :
    State.reset.reg 0 = State.reset.reg 15 ∧ (State.reset.setReg 15 0xFF#8).reg 0 ≠ (State.reset.setReg 15 0xFF#8).reg 15 := by
  decide

theorem witness_SneRegSkipsOnDifferent :
    (State.reset.setReg 15 0xFF#8).reg 0 ≠ (State.reset.setReg 15 0xFF#8).reg 15 ∧ State.reset.reg 0 = State.reset.reg 15 := by
  decide

theorem witness_AddRegSetsCarry : (14 : Reg) ≠ 15 ∧ (0 : Reg) ≠ 15 := by decide

/-- Equal operands fall under "no borrow", the neighbouring value under "borrow"; no value under both. -/
theorem witness_SubSetsNotBorrow : (14 : Reg) ≠ 15 ∧ (State.reset.reg 1).toNat ≤ (State.reset.reg 0).toNat ∧
    ((State.reset.setReg 1 0x01#8).reg 0).toNat < ((State.reset.setReg 1 0x01#8).reg 1).toNat := by decide

theorem witness_SubnSetsNotBorrow : (14 : Reg) ≠ 15 ∧ (State.reset.reg 0).toNat ≤ (State.reset.reg 1).toNat ∧
    ((State.reset.setReg 0 0x01#8).reg 1).toNat < ((State.reset.setReg 0 0x01#8).reg 0).toNat := by decide

theorem witness_ShrShiftsInPlace : (14 : Reg) ≠ 15 ∧ State.reset.config.vfOrder = .textOrder ∧
    (flagLast State.reset).config.vfOrder = .flagLast := by decide

theorem witness_ShlShiftsInPlace : (0 : Reg) ≠ 15 ∧ State.reset.config.vfOrder = .textOrder ∧
    (flagLast State.reset).config.vfOrder = .flagLast := by decide

/-- A shift of another register than VF is among the instructions the statement is about. -/
theorem witness_VfOrderSeenOnlyByShiftsOfVf :
    (∀ y, Instr.shr 14 0 ≠ .shr 15 y) ∧ (∀ y, Instr.shr 14 0 ≠ .shl 15 y) ∧ ∃ t, exec (.shr 14 0) State.reset = .next t :=
  ⟨by decide, by decide, _, rfl⟩

theorem witness_RndMasksFreshDraw : (0x7F#8 : Byte).getLsbD 7 = false ∧ (0xFE#8 : Byte).getLsbD 0 = false := by decide

theorem witness_LdBStoresDecimalDigits : (at_ 0x200#16 0xFFD#16).index.toNat + 2 ≤ 0xFFF := by decide

theorem witness_LdMemStoreStoresRegisters :
    (at_ 0x200#16 0xFFF#16).index.toNat + (0 : Reg).val ≤ 0xFFF ∧ (at_ 0x200#16 0xFF0#16).index.toNat + (15 : Reg).val ≤ 0xFFF ∧
    (15 : Reg) ≤ 15 := by decide

theorem witness_LdMemLoadLoadsRegisters :
    (at_ 0x200#16 0xFFF#16).index.toNat + (0 : Reg).val ≤ 0xFFF ∧ (at_ 0x200#16 0xFF0#16).index.toNat + (15 : Reg).val ≤ 0xFFF ∧
    (15 : Reg) ≤ 15 ∧ (0 : Reg) < 1 := by decide

theorem witness_StoredBytesAreFetched : (15 : Reg) ≤ 15 ∧ (15 : Reg).val = (14 : Reg).val + 1 ∧
    (at_ 0x200#16 0xFF0#16).index.toNat + (15 : Reg).val ≤ 0xFFF := by decide

theorem witness_LoadUndoesStore : (at_ 0x200#16 0xFF0#16).index.toNat + (15 : Reg).val ≤ 0xFFF := by decide

/-- Key 15 pressed and key 0 not; the smallest byte that names no key. -/
theorem witness_SkpAndSknpTestTheNamedKey :
    ((State.reset.setReg 3 0x0F#8).reg 3).toNat = (15 : Fin 16).val ∧ (State.reset.key.set 15 true)[(15 : Fin 16).val] = true ∧
    (State.reset.reg 3).toNat = (0 : Fin 16).val ∧ State.reset.key[(0 : Fin 16).val] = false ∧
    0xF < ((State.reset.setReg 3 0x10#8).reg 3).toNat := by decide

/-- The highest key, the lowest key alone, and none. -/
theorem witness_LdVKWaitsForHighestKey :
    ((State.reset.key.set 15 true)[(15 : Fin 16).val] = true ∧
      ∀ j : Fin 16, 15 < j → (State.reset.key.set 15 true)[j.val] = false) ∧
    ((State.reset.key.set 0 true)[(0 : Fin 16).val] = true ∧
      ∀ j : Fin 16, 0 < j → (State.reset.key.set 0 true)[j.val] = false) ∧
    ∀ j : Fin 16, State.reset.key[j.val] = false := by decide

theorem witness_DecodeOfEncodeIsIdentity : (Instr.drw 15 15 15).wf = true ∧ (Instr.jp 0xFFF#12).wf = true := by decide

theorem witness_EncodeOfDecodeIsIdentity :
    decodeWord 0x0000#16 = .ok .nop ∧ decodeWord 0xFF65#16 = .ok (.ldMemLoad 15) := by decide

/-- Each clause of a step: faulted, fetch past the end, a decoded word, an unknown word. -/
theorem witness_StepRunsTheDecodedInstruction :
    (State.reset.setFault (some (.fetchRange 0xFFF#16))).fault ≠ none ∧
    ((at_ 0xFFF#16 0#16).fault = none ∧ 0xFFE < (at_ 0xFFF#16 0#16).pc.toNat) ∧
    ((at_ 0xFFE#16 0#16).fault = none ∧ (at_ 0xFFE#16 0#16).pc.toNat ≤ 0xFFE ∧
      (0x0000#16).toNat = ((at_ 0xFFE#16 0#16).byteAt 0xFFE).toNat * 256 + ((at_ 0xFFE#16 0#16).byteAt 0xFFF).toNat ∧
      decodeWord 0x0000#16 = .ok .nop) ∧
    (at_ 0#16 0#16).fault = none ∧ (at_ 0#16 0#16).pc.toNat ≤ 0xFFE ∧
      (0xF090#16).toNat = ((at_ 0#16 0#16).byteAt 0).toNat * 256 + ((at_ 0#16 0#16).byteAt 1).toNat ∧
      decodeWord 0xF090#16 = .error (.unknownWord 0xF090#16) := by decide

/-- The first two glyph bytes, F0 90, are a word of no row. -/
theorem witness_UnknownWordIsNoOp : (at_ 0#16 0#16).fault = none ∧ (at_ 0#16 0#16).pc.toNat ≤ 0xFFE ∧
    (0xF090#16).toNat = ((at_ 0#16 0#16).byteAt 0).toNat * 256 + ((at_ 0#16 0#16).byteAt 1).toNat ∧
    ∀ row ∈ opcodeTable, (0xF090#16 : Word) &&& row.mask ≠ row.value := by decide

theorem witness_FaultedStateIsSticky : (State.reset.setFault (some (.keyRange 0x200#16 0xE59E#16 0x10#8))).fault ≠ none := by
  decide

/-- A step that faults at the fetch, and one that faults in the instruction (Fx65 past the end). -/
theorem witness_FaultEntryIsPrecise :
    (at_ 0xFFF#16 0#16).fault = none ∧ answers (step (at_ 0xFFF#16 0#16)) (fun t => t.fault != none) = true ∧
    answers (step ((at_ 0x200#16 0xFFFF#16).withFetchWord 16 0xF065)) (fun t => t.fault != none) = true := by decide

/-- The first address out of range: just past the end after bytes in range, and at once when I is above. -/
theorem witness_OutOfRangeAccessFaults :
    FirstOutOfRange 0xFF1 16 0x1000 ∧ FirstOutOfRange 0xFFF 2 0x1000 ∧ FirstOutOfRange 0xFFE 3 0x1000 ∧
    FirstOutOfRange 0xFFFF 1 0xFFFF := by
  refine ⟨?_, ?_, ?_, ?_⟩ <;> refine ⟨?_, ?_, ?_, fun b h1 h2 => ?_⟩ <;> omega

/-- Each of the six instructions raises its fault in some state. -/
theorem witness_OnlySixInstructionsFault :
    (∀ i ∈ [Instr.drw 0 0 1, .ldB 0, .ldMemStore 0, .ldMemLoad 0],
      answers (exec i (at_ 0x202#16 0x1000#16)) (fun t => t.fault != none) = true) ∧
    ∀ i ∈ [Instr.skp 0, .sknp 0], answers (exec i (State.reset.setReg 0 0x10#8)) (fun t => t.fault != none) = true := by
  decide

/-- The statements about every instruction that answers a next state have instructions that change each part. -/
theorem witness_EachPartHasOnlyItsWriters :
    answers (exec (.ldI 0xFFF#12) State.reset) (fun t => t.index != State.reset.index) = true ∧
    answers (exec .ret State.reset) (fun t => t.pc != State.reset.pc) = true ∧
    answers (exec (.call 0#12) State.reset) (fun t => t.sp != State.reset.sp) = true ∧
    answers (exec (.ldDtV 0) (State.reset.setReg 0 0xFF#8)) (fun t => t.dt != State.reset.dt) = true ∧
    answers (exec (.ldStV 0) (State.reset.setReg 0 0xFF#8)) (fun t => t.st != State.reset.st) = true ∧
    answers (exec (.ldB 0) State.reset) (fun t => t.mem != State.reset.mem) = true ∧
    answers (exec (.drw 0 0 1) State.reset) (fun t => t.scr != State.reset.scr) = true := by decide

theorem witness_SoundTimerIsNeverRead : ∃ t, exec (.ldStV 0) State.reset = .next t := ⟨_, rfl⟩

theorem witness_VfIsWrittenOnlyAsFlagOrByName :
    answers (exec (.ldImm 15 0xFF#8) State.reset) (fun t => t.reg 15 != State.reset.reg 15) = true ∧
    answers (exec (.sub 0 0) State.reset) (fun t => t.reg 15 != State.reset.reg 15) = true := by decide

/-- The one reset state under `zero`, and two of those under `arbitrary`. -/
theorem witness_ResetMeetsInvariant :
    IsReset .zero defaultConfig State.reset ∧ IsReset .arbitrary defaultConfig State.reset ∧
    IsReset .arbitrary defaultConfig ((State.reset.setIndex 0xFFFF#16).setReg 0 0xAB#8) :=
  have glyph : ∀ a, (h : a < 80) → State.reset.byteAt a = defaultConfig.glyphs[a] := fun a h => dif_pos h
  ⟨rfl, ⟨rfl, rfl, rfl, rfl, Memory.wf_nil, glyph⟩, ⟨rfl, rfl, rfl, rfl, Memory.wf_nil, glyph⟩⟩

theorem witness_ResetStateIsAsTabled : IsReset .zero (flagLast State.reset).config (flagLast State.reset) := rfl

/-- The invariant at its bounds: pc at 0x10FE, a full stack of entries at 0x1000; and a step from there. -/
theorem witness_StepKeepsInvariant :
    Inv ((deep 16).setPc 0x10FE#16) ∧ ∃ t, step ((deep 16).setPc 0x10FE#16) = .next t :=
  ⟨⟨Memory.wf_nil, by decide, by decide, fun _ h => by cases h⟩, _, rfl⟩

theorem witness_ReachableStatesMeetInvariant : Reachable .zero defaultConfig (afterOp (.setKey 15) State.reset) :=
  .op _ _ (.reset _ rfl)

theorem witness_LoadCopiesProgram :
    (List.replicate 3584 0xAB#8).length ≤ 3584 ∧ 3584 < (List.replicate 3585 0xAB#8).length ∧ 0 < (List.replicate 3584 0xAB#8).length := by
  rw [List.length_replicate, List.length_replicate]; decide

theorem witness_KeyOperationsSetAndClear : (14 : Fin 16) ≠ 15 ∧ 16 ≤ 16 := by decide

theorem witness_ReadDisplayIsLinear : 63 < 64 ∧ 31 < 32 := by decide

/-- The invariant at its bounds again, and an operation that is carried out and one that is refused. -/
theorem witness_EveryHostOperationKeepsInvariant :
    Inv ((deep 16).setPc 0x10FE#16) ∧ HostOp.wf .step = true ∧ HostOp.wf (.setKey 16) = false :=
  ⟨⟨Memory.wf_nil, by decide, by decide, fun _ h => by cases h⟩, rfl, by decide⟩

end Sys2Proof.Tests
end

/-! PROOFS. The opcode table against the decoder (30_encoding.md R95, R99), and the step (R90, R91). Every row's mask
keeps the op nibble, so only the rows of a word's own op can accept it; op by op these rows are matched with the
decoder's dispatch. -/

namespace Sys2Proof.Proofs

open Sys2Proof Sys2Proof.Machine

/-! ### The rows that accept a word -/

/-- The mnemonics of those of the given rows that the word belongs to. -/
def acceptedMnemonics (rows : List OpcodeRow) (w : Word) : List String :=
  (rows.filter (fun row => row.accepts w)).map (fun row => row.mnemonic)

@[simp] theorem acceptedMnemonics_nil (w : Word) : acceptedMnemonics [] w = [] := rfl

@[simp] theorem acceptedMnemonics_cons_of_accepts {row : OpcodeRow} {w : Word} (rows : List OpcodeRow)
    (h : row.accepts w = true) : acceptedMnemonics (row :: rows) w = row.mnemonic :: acceptedMnemonics rows w := by
  simp [acceptedMnemonics, h]

@[simp] theorem acceptedMnemonics_cons_of_not_accepts {row : OpcodeRow} {w : Word} (rows : List OpcodeRow)
    (h : row.accepts w = false) : acceptedMnemonics (row :: rows) w = acceptedMnemonics rows w := by
  simp [acceptedMnemonics, h]

/-- The mnemonic of the row that an answer of the decoder names, or none. -/
def answeredMnemonics : Except DecodeError Instr → List String
  | .ok i => [i.mnemonic]
  | .error _ => []

@[simp] theorem answeredMnemonics_ok (i : Instr) : answeredMnemonics (.ok i) = [i.mnemonic] := rfl

@[simp] theorem answeredMnemonics_error (e : DecodeError) : answeredMnemonics (.error e) = [] := rfl

/-! ### Only the rows of the word's own op matter -/

/-- The rows of the table whose op nibble is `op`. -/
def rowsWithOp (op : Nat) : List OpcodeRow := opcodeTable.filter (fun row => row.value.toNat / 4096 == op)

/-- A word can only belong to a row with its own op nibble. -/
theorem fieldOp_of_accepts {row : OpcodeRow} {w : Word} (hrow : row ∈ opcodeTable) (h : row.accepts w = true) :
    row.value.toNat / 4096 = fieldOp w := by
  have hmask : ∀ r ∈ opcodeTable, r.mask &&& 0xF000#16 = 0xF000#16 := by decide
  have hv : w &&& row.mask = row.value := beq_iff_eq.mp h
  have hand : row.value &&& 0xF000#16 = w &&& 0xF000#16 := by rw [← hv, BitVec.and_assoc, hmask row hrow]
  have hnat : fieldOp row.value * 4096 = fieldOp w * 4096 := by rw [← and_F000_toNat, ← and_F000_toNat, hand]
  rw [← fieldOp_eq]
  omega

/-- The rows of the other ops accept nothing, so they can be left out. -/
theorem acceptedMnemonics_opcodeTable (w : Word) :
    acceptedMnemonics opcodeTable w = acceptedMnemonics (rowsWithOp (fieldOp w)) w := by
  rw [acceptedMnemonics, acceptedMnemonics, rowsWithOp, List.filter_filter]
  congr 1
  refine List.filter_congr fun row hrow => ?_
  cases h : row.accepts w with
  | false => rfl
  | true => simp [fieldOp_of_accepts hrow h]

/-! ### The rows of one op against the decoder -/

/-- Op 0: the whole word selects. -/
theorem acceptedMnemonics_op0 (w : Word) : acceptedMnemonics (rowsWithOp 0) w = answeredMnemonics (decodeOp0 w) := by
  have hrows : rowsWithOp 0 =
    [⟨"NOP", 0x0000#16, 0xFFFF#16⟩, ⟨"CLS", 0x00E0#16, 0xFFFF#16⟩, ⟨"RET", 0x00EE#16, 0xFFFF#16⟩] := rfl
  rw [hrows, decodeOp0]
  split_ifs with hnop hcls hret
  · subst w; decide
  · subst w; decide
  · subst w; decide
  · simp [accepts_FFFF, hnop, hcls, hret]

/-- Op 8: n selects. Each arm of the dispatch fixes n, or excludes all nine values, and that decides every row. -/
theorem acceptedMnemonics_op8 {w : Word} (hop : fieldOp w = 0x8) :
    acceptedMnemonics (rowsWithOp 0x8) w = answeredMnemonics (decodeOp8 w) := by
  have hrows : rowsWithOp 0x8 = rowsOp8 := rfl
  rw [hrows, rowsOp8, decodeOp8]
  split <;> simp_all [accepts_F00F, Instr.mnemonic, -Fin.val_eq_zero_iff]

/-- Op E: kk selects, as n does for op 8. -/
theorem acceptedMnemonics_opE {w : Word} (hop : fieldOp w = 0xE) :
    acceptedMnemonics (rowsWithOp 0xE) w = answeredMnemonics (decodeOpE w) := by
  have hrows : rowsWithOp 0xE = [⟨"SKP", 0xE09E#16, 0xF0FF#16⟩, ⟨"SKNP", 0xE0A1#16, 0xF0FF#16⟩] := rfl
  rw [hrows, decodeOpE]
  split <;> simp_all [accepts_F0FF, Instr.mnemonic]

/-- Op F: kk selects, as n does for op 8. -/
theorem acceptedMnemonics_opF {w : Word} (hop : fieldOp w = 0xF) :
    acceptedMnemonics (rowsWithOp 0xF) w = answeredMnemonics (decodeOpF w) := by
  have hrows : rowsWithOp 0xF = rowsOpF := rfl
  rw [hrows, rowsOpF, decodeOpF]
  split <;> simp_all [accepts_F0FF, Instr.mnemonic]

/-- Ops 5 and 9: the op's one row requires n = 0. -/
theorem acceptedMnemonics_opN {w v : Word} {op : Nat} {m : String} (hop : fieldOp w = op)
    (hrows : rowsWithOp op = [⟨m, v, 0xF00F#16⟩]) (hv : v.toNat = op * 4096) :
    acceptedMnemonics (rowsWithOp op) w = if (fieldN w).val = 0 then [m] else [] := by
  rw [hrows]
  split_ifs with hn <;> simp [accepts_F00F, hop, hv, hn, -Fin.val_eq_zero_iff]

/-- The other ops: the op nibble alone selects the op's one row. -/
theorem acceptedMnemonics_opAlone {w v : Word} {op : Nat} {m : String} (hop : fieldOp w = op)
    (hrows : rowsWithOp op = [⟨m, v, 0xF000#16⟩]) (hv : v.toNat = op * 4096) :
    acceptedMnemonics (rowsWithOp op) w = [m] := by
  rw [hrows]
  simp [accepts_F000, hop, hv]

/-- The rows of the word's op, against the decoder's dispatch on that op. -/
theorem acceptedMnemonics_rowsWithOp (w : Word) :
    acceptedMnemonics (rowsWithOp (fieldOp w)) w = answeredMnemonics (decodeWord w) := by
  unfold decodeWord
  match hop : fieldOp w, fieldOp_lt w with
  | 0x0, _ => exact acceptedMnemonics_op0 w
  | 0x8, _ => exact acceptedMnemonics_op8 hop
  | 0xE, _ => exact acceptedMnemonics_opE hop
  | 0xF, _ => exact acceptedMnemonics_opF hop
  | 0x5, _ | 0x9, _ =>
    rw [acceptedMnemonics_opN hop rfl rfl]
    split_ifs <;> rfl
  | 0x1, _ | 0x2, _ | 0x3, _ | 0x4, _ | 0x6, _ | 0x7, _ | 0xA, _ | 0xB, _ | 0xC, _ | 0xD, _ =>
    exact acceptedMnemonics_opAlone hop rfl rfl
  | _ + 16, hlt => omega

/-- Settles O40: the table's rows are cut down to those of the word's op, which are matched with the dispatch. -/
theorem decodeSelectsTheOneTableRow : Obligations.DecodeSelectsTheOneTableRow := by
  intro w
  have h : acceptedMnemonics opcodeTable w = answeredMnemonics (decodeWord w) :=
    (acceptedMnemonics_opcodeTable w).trans (acceptedMnemonics_rowsWithOp w)
  cases hd : decodeWord w <;> exact hd ▸ h

/-- A word that belongs to no row of the table is unknown to the decoder. -/
theorem decodeWord_of_no_row {w : Word} (h : ∀ row ∈ opcodeTable, w &&& row.mask ≠ row.value) :
    ∃ e, decodeWord w = .error e := by
  have hnone : opcodeTable.filter (fun row => row.accepts w) = [] :=
    List.filter_eq_nil_iff.mpr fun row hrow haccepts => h row hrow (beq_iff_eq.mp haccepts)
  have hone := decodeSelectsTheOneTableRow w
  rw [hnone] at hone
  cases hd : decodeWord w with
  | ok i => simp [hd] at hone
  | error e => exact ⟨e, rfl⟩

/-! ### The step -/

/-- The fetch in the spec's words (R90): the word with the byte at pc in bits 15:8 and the byte at pc + 1 in bits 7:0. -/
theorem fetchWord_eq_of_toNat {s : State} {w : Word} (hpc : s.pc.toNat ≤ 0xFFE)
    (hw : w.toNat = (s.byteAt s.pc.toNat).toNat * 256 + (s.byteAt (s.pc.toNat + 1)).toNat) : fetchWord s = .ok w := by
  rw [fetchWord_ok s hpc, ← BitVec.eq_of_toNat_eq (hw.trans (wordOfBytes_toNat _ _).symm)]

theorem frame_setPc (s : State) (a : Word) : Frame [] [.pc] s (s.setPc a) := by
  constructor <;> simp

/-- A fault taken where pc stands changes FAULT alone. -/
theorem takeFault_frame (record : FaultRecord) (s : State) :
    ∃ t, takeFault s.pc record s = .next t ∧ t.fault = some record ∧ Frame [] [.fault] s t :=
  ⟨_, rfl, rfl, by constructor <;> simp⟩

/-- Settles O43: by O40 the decoder does not know the word, so the step only advances pc. -/
theorem unknownWordIsNoOp : Obligations.UnknownWordIsNoOp := by
  intro s w hf hpc hw hno
  obtain ⟨e, hd⟩ := decodeWord_of_no_row hno
  exact ⟨s.advancePc, step_unknown hf (fetchWord_eq_of_toNat hpc hw) hd, rfl, frame_setPc s _⟩

/-- Settles O42, clause by clause from the rules of the step. -/
theorem stepRunsTheDecodedInstruction : Obligations.StepRunsTheDecodedInstruction := by
  intro s
  refine ⟨fun hf => ?faulted, fun hf hpc => ?fetchRange, fun w i hf hpc hw hd => ?decoded,
    fun w e hf hpc hw hd => ?unknown⟩
  case faulted =>
    obtain ⟨f, hf⟩ := Option.ne_none_iff_exists'.mp hf
    exact step_faulted hf
  case fetchRange =>
    rw [step_fetchRange hf hpc]
    exact takeFault_frame _ s
  case decoded => exact step_decoded hf (fetchWord_eq_of_toNat hpc hw) hd
  case unknown => exact step_unknown hf (fetchWord_eq_of_toNat hpc hw) hd

end Sys2Proof.Proofs

/-! PROOFS. Control flow (40_control_flow.md): the no-op, the return and the two jumps. -/

namespace Sys2Proof.Proofs

open Sys2Proof Sys2Proof.Machine

/-- A word written as a number decodes to the instruction whose encoding has that number. -/
theorem decodeWord_ofNat_of_encode {i : Instr} {n : Nat} (hd : Laws.WordDecodes.Statement i)
    (hn : (encode i).toNat = n) : decodeWord (BitVec.ofNat 16 n) = .ok i := by
  have hw : BitVec.ofNat 16 n = encode i := by rw [← hn, BitVec.ofNat_toNat, BitVec.setWidth_eq]
  rw [hw]
  exact hd

theorem frame_setStack_setPc (s : State) (stk : Vector Word 16) (sp : Fin 17) (a : Word) :
    Frame [] [.pc, .stack] s ((s.setStack stk sp).setPc a) := by
  constructor <;> simp

/-- Settles O1: two zero bytes are fetched as the word 0x0000, so the step is NOP after the advance of pc. -/
theorem nopOnlyAdvancesPc : Obligations.NopOnlyAdvancesPc := by
  refine ⟨Laws.WordDecodes.nop, fun _ => rfl, fun s hf hpc hfirst hsecond => ?_⟩
  have hw : fetchWord s = .ok 0x0000#16 := fetchWord_eq_of_toNat hpc (by rw [hfirst, hsecond]; rfl)
  exact ⟨s.advancePc, step_decoded hf hw Laws.WordDecodes.nop, rfl, frame_setPc s _⟩

/-- Settles O2, by the two cases of Pop: an empty stack, and one whose top is STK[SP-1]. -/
theorem retPopsReturnAddress : Obligations.RetPopsReturnAddress := by
  refine ⟨Laws.WordDecodes.ret, fun s => ?_⟩
  rcases execRet_cases s with ⟨hempty, hexec⟩ | ⟨hpos, hexec⟩
  · refine ⟨_, hexec, fun j hj => ?_, fun _ => ⟨rfl, hempty⟩, rfl, frame_setStack_setPc s s.stk s.sp _⟩
    simp [hempty] at hj
  · refine ⟨_, hexec, fun j hj => ?_, fun hempty => ?_, rfl, frame_setStack_setPc s _ _ _⟩
    · have htop : s.sp.val - 1 = j.val := by omega
      simp [htop]
    · simp [hempty] at hpos

/-- Settles O3: zero extension keeps the number of nnn. -/
theorem jpSetsPcToTarget : Obligations.JpSetsPcToTarget := fun nnn s =>
  ⟨decodeWord_ofNat_of_encode (Laws.WordDecodes.jp nnn) (formatA_toNat 0x1#4 nnn),
    s.setPc (zextAddr nnn), rfl, zextAddr_toNat nnn, frame_setPc s _⟩

/-- Settles O5: the sum of a 12-bit address and a byte does not reach 2^16. -/
theorem jpV0AddsOffset : Obligations.JpV0AddsOffset := fun nnn s =>
  ⟨decodeWord_ofNat_of_encode (Laws.WordDecodes.jpV0 nnn) (formatA_toNat 0xB#4 nnn),
    s.setPc (zextAddr nnn + zextByte s.v0), rfl, zextAddr_add_zextByte_toNat nnn s.v0, frame_setPc s _⟩

end Sys2Proof.Proofs

/-! PROOFS. Skips (42_skips.md): each of the four is Skip() under a test, and they differ in the test alone. -/

namespace Sys2Proof.Proofs

open Sys2Proof Sys2Proof.Machine

theorem skipIf_pc (s : State) (c : Bool) : (s.skipIf c).pc = if c then s.pc + 2#16 else s.pc := by
  rw [State.skipIf_eq, State.setPc_pc]

theorem frame_skipIf (s : State) (c : Bool) : Frame [] [.pc] s (s.skipIf c) := by
  rw [State.skipIf_eq]
  exact frame_setPc s _

/-- An instruction that is Skip() under the test `c` (R160): where `c` is true pc advances by a further 2, where it is
false pc stays, and either way nothing else changes. -/
theorem exec_skips_of_test {i : Instr} {s : State} {c : Bool} {skips stays : Prop}
    (hexec : exec i s = .next (s.skipIf c)) (hskips : skips → c = true) (hstays : stays → c = false) :
    ∃ t, exec i s = .next t ∧ (skips → t.pc = s.pc + 2#16) ∧ (stays → t.pc = s.pc) ∧ Frame [] [.pc] s t := by
  refine ⟨_, hexec, fun h => ?_, fun h => ?_, frame_skipIf s c⟩
  · rw [skipIf_pc, hskips h, if_pos rfl]
  · rw [skipIf_pc, hstays h, if_neg Bool.false_ne_true]

/-- Settles O10: the test is Vx = kk. -/
theorem seImmSkipsOnEqual : Obligations.SeImmSkipsOnEqual := fun x kk s =>
  ⟨decodeWord_ofNat_of_encode (Laws.WordDecodes.seImm x kk) (formatB_toNat 0x3#4 x kk),
    exec_skips_of_test (c := s.reg x == kk) rfl beq_iff_eq.mpr beq_eq_false_iff_ne.mpr⟩

/-- Settles O11: the test is Vx ≠ kk. -/
theorem sneImmSkipsOnDifferent : Obligations.SneImmSkipsOnDifferent := fun x kk s =>
  ⟨decodeWord_ofNat_of_encode (Laws.WordDecodes.sneImm x kk) (formatB_toNat 0x4#4 x kk),
    exec_skips_of_test (c := s.reg x != kk) rfl bne_iff_ne.mpr bne_eq_false_iff_eq.mpr⟩

/-- Settles O12: the test is Vx = Vy, and the word's last nibble is 0. -/
theorem seRegSkipsOnEqual : Obligations.SeRegSkipsOnEqual := fun x y s =>
  ⟨decodeWord_ofNat_of_encode (Laws.WordDecodes.seReg x y) (formatR_toNat 0x5#4 x y 0x0#4),
    exec_skips_of_test (c := s.reg x == s.reg y) rfl beq_iff_eq.mpr beq_eq_false_iff_ne.mpr⟩

/-- Settles O13: the test is Vx ≠ Vy, and the word's last nibble is 0. -/
theorem sneRegSkipsOnDifferent : Obligations.SneRegSkipsOnDifferent := fun x y s =>
  ⟨decodeWord_ofNat_of_encode (Laws.WordDecodes.sneReg x y) (formatR_toNat 0x9#4 x y 0x0#4),
    exec_skips_of_test (c := s.reg x != s.reg y) rfl bne_iff_ne.mpr bne_eq_false_iff_eq.mpr⟩

end Sys2Proof.Proofs

/-! PROOFS. Register loads and the ALU (43_alu.md): the loads and the immediate add write one register; 8xy4, 8xy5 and
8xy7 write a result and then VF, so VF keeps the flag when x = F (R171). -/

namespace Sys2Proof.Proofs

open Sys2Proof Sys2Proof.Machine

/-! ### What the two writes leave unchanged, and what they leave in the registers -/

theorem frame_setReg (s : State) (x : Reg) (b : Byte) : Frame [x] [] s (s.setReg x b) := by
  constructor <;> simp +contextual

theorem frame_resultThenFlag (s : State) (x : Reg) (b : Byte) (f : Bool) :
    Frame [x, 15] [] s (s.resultThenFlag x b f) := by
  rw [State.resultThenFlag_eq]
  constructor <;> simp +contextual [flagReg]

/-- VF holds the flag, for every x. -/
theorem resultThenFlag_reg_flag (s : State) (x : Reg) (b : Byte) (f : Bool) :
    (s.resultThenFlag x b f).reg 15 = flagByte f :=
  State.reg_setReg_same _ flagReg _

/-- The flag does not overwrite a result in another register than VF. -/
theorem resultThenFlag_reg_result (s : State) {x : Reg} (hx : x ≠ 15) (b : Byte) (f : Bool) :
    (s.resultThenFlag x b f).reg x = b := by
  rw [State.resultThenFlag_eq, State.reg_setReg_other (x := flagReg) _ hx, State.reg_setReg_same]

/-! ### The words of op 8 -/

/-- The number of a word of op 8, as the spec writes it: the last nibble is a part of the constant. -/
theorem formatR_op8_toNat (x y : Reg) (n : BitVec 4) :
    (formatR 0x8#4 x y n).toNat = 0x8000 + n.toNat + x.val * 0x100 + y.val * 0x10 := by
  have hop : (0x8#4).toNat = 8 := rfl
  rw [formatR_toNat, hop]
  omega

/-! ### Instructions that write one register -/

/-- Settles O14. -/
theorem ldImmLoadsImmediate : Obligations.LdImmLoadsImmediate := fun x kk s =>
  ⟨decodeWord_ofNat_of_encode (Laws.WordDecodes.ldImm x kk) (formatB_toNat 0x6#4 x kk),
    s.setReg x kk, rfl, s.reg_setReg_same x kk, frame_setReg s x kk⟩

/-- Settles O15: addition of bytes is addition modulo 2^8, and the frame has VF in it unless x = F. -/
theorem addImmWrapsWithoutFlag : Obligations.AddImmWrapsWithoutFlag := fun x kk s =>
  ⟨decodeWord_ofNat_of_encode (Laws.WordDecodes.addImm x kk) (formatB_toNat 0x7#4 x kk),
    s.setReg x (s.reg x + kk), rfl, by rw [State.reg_setReg_same, BitVec.toNat_add], frame_setReg s x _⟩

/-- Settles O16. -/
theorem ldRegCopiesRegister : Obligations.LdRegCopiesRegister := fun x y s =>
  ⟨decodeWord_ofNat_of_encode (Laws.WordDecodes.ldReg x y) (formatR_op8_toNat x y 0x0#4),
    s.setReg x (s.reg y), rfl, s.reg_setReg_same x _, frame_setReg s x _⟩

/-! ### Instructions that write a result and a flag -/

/-- Settles O18: the sum is addition modulo 2^8, and VF is the quotient by 256. -/
theorem addRegSetsCarry : Obligations.AddRegSetsCarry := by
  intro x y s
  refine ⟨decodeWord_ofNat_of_encode (Laws.WordDecodes.addReg x y) (formatR_op8_toNat x y 0x4#4),
    _, rfl, fun hx => ?sum, ?carry, frame_resultThenFlag s x _ _⟩
  case sum => rw [resultThenFlag_reg_result s hx, BitVec.toNat_add]
  case carry => rw [resultThenFlag_reg_flag, carry_toNat]

/-- An instruction that writes `d - e` to Vx and NOT borrow of it to VF (R179, R181). -/
theorem exec_subtracts {i : Instr} {s : State} {x : Reg} {d e : Byte}
    (hexec : exec i s = .next (s.resultThenFlag x (d - e) (notBorrow d e))) :
    ∃ t, exec i s = .next t ∧
      (x ≠ 15 → ((t.reg x).toNat : Int) = (d.toNat - e.toNat : Int) % 256) ∧
      (e.toNat ≤ d.toNat → t.reg 15 = 0x01#8) ∧
      (d.toNat < e.toNat → t.reg 15 = 0x00#8) ∧ Frame [x, 15] [] s t := by
  refine ⟨_, hexec, fun hx => ?difference, fun hle => ?noBorrow, fun hlt => ?borrow, frame_resultThenFlag s x _ _⟩
  case difference => rw [resultThenFlag_reg_result s hx, sub_toNat_mod]
  case noBorrow => rw [resultThenFlag_reg_flag, notBorrow_of_le hle]
  case borrow => rw [resultThenFlag_reg_flag, notBorrow_of_lt hlt]

/-- Settles O19: the difference is Vx - Vy. -/
theorem subSetsNotBorrow : Obligations.SubSetsNotBorrow := fun x y _ =>
  ⟨decodeWord_ofNat_of_encode (Laws.WordDecodes.sub x y) (formatR_op8_toNat x y 0x5#4), exec_subtracts rfl⟩

/-- Settles O20: the difference is Vy - Vx. -/
theorem subnSetsNotBorrow : Obligations.SubnSetsNotBorrow := fun x y _ =>
  ⟨decodeWord_ofNat_of_encode (Laws.WordDecodes.subn x y) (formatR_op8_toNat x y 0x7#4), exec_subtracts rfl⟩

end Sys2Proof.Proofs

/-! PROOFS. The index register (44_index_memory.md). -/

namespace Sys2Proof.Proofs

open Sys2Proof Sys2Proof.Machine

theorem frame_setIndex (s : State) (a : Word) : Frame [] [.index] s (s.setIndex a) := by
  constructor <;> simp

/-- Settles O25: zero extension keeps the number of nnn (R200). -/
theorem ldILoadsAddress : Obligations.LdILoadsAddress := fun nnn s =>
  ⟨decodeWord_ofNat_of_encode (Laws.WordDecodes.ldI nnn) (formatA_toNat 0xA#4 nnn),
    s.setIndex (zextAddr nnn), rfl, zextAddr_toNat nnn, frame_setIndex s _⟩

end Sys2Proof.Proofs

/-! PROOFS. The timers (45_keypad_timers.md R222, R224, R225): DT is read and written by instructions, ST only
written. -/

namespace Sys2Proof.Proofs

open Sys2Proof Sys2Proof.Machine

/-! ### What setting a timer leaves unchanged -/

theorem frame_setDt (s : State) (b : Byte) : Frame [] [.dt] s (s.setDt b) := by
  constructor <;> simp

theorem frame_setSt (s : State) (b : Byte) : Frame [] [.st] s (s.setSt b) := by
  constructor <;> simp

/-! ### The words of op F -/

/-- The number of a word of op F, as the spec writes it: the low byte is a part of the constant. -/
theorem formatB_opF_toNat (x : Reg) (kk : Byte) :
    (formatB 0xF#4 x kk).toNat = 0xF000 + kk.toNat + x.val * 0x100 := by
  have hop : (0xF#4).toNat = 15 := rfl
  rw [formatB_toNat, hop]
  omega

/-! ### The three transfers between a register and a timer -/

/-- Settles O34: DT is written to Vx, and DT itself is kept. -/
theorem ldVDtReadsDelayTimer : Obligations.LdVDtReadsDelayTimer := fun x s =>
  ⟨decodeWord_ofNat_of_encode (Laws.WordDecodes.ldVDt x) (formatB_opF_toNat x 0x07#8),
    s.setReg x s.dt, rfl, s.reg_setReg_same x s.dt, frame_setReg s x s.dt⟩

/-- Settles O36: Vx is written to DT, and Vx itself is kept. -/
theorem ldDtVSetsDelayTimer : Obligations.LdDtVSetsDelayTimer := fun x s =>
  ⟨decodeWord_ofNat_of_encode (Laws.WordDecodes.ldDtV x) (formatB_opF_toNat x 0x15#8),
    s.setDt (s.reg x), rfl, s.setDt_dt (s.reg x), frame_setDt s (s.reg x)⟩

/-- Settles O37: Vx is written to ST, and Vx itself is kept. -/
theorem ldStVSetsSoundTimer : Obligations.LdStVSetsSoundTimer := fun x s =>
  ⟨decodeWord_ofNat_of_encode (Laws.WordDecodes.ldStV x) (formatB_opF_toNat x 0x18#8),
    s.setSt (s.reg x), rfl, s.setSt_st (s.reg x), frame_setSt s (s.reg x)⟩

end Sys2Proof.Proofs

/-! PROOFS. The host operations (60_exceptions.md R252, R254): TICK, which writes the two timers, and READ_DISPLAY, which
writes nothing. -/

namespace Sys2Proof.Proofs

open Sys2Proof Sys2Proof.Machine

/-! ### TICK -/

/-- A timer at 0 stays there, as 0 - 1 does among the naturals; any other has 1 to give, so the byte does not wrap. -/
theorem tickTimer_toNat (b : Byte) : (tickTimer b).toNat = b.toNat - 1 := by
  rw [tickTimer]
  split_ifs with hzero
  · rw [hzero]
    rfl
  · have hone : 1#8 ≤ b := by bv_omega
    rw [BitVec.toNat_sub_of_le hone]
    rfl

theorem frame_setDt_setSt (s : State) (d e : Byte) : Frame [] [.dt, .st] s ((s.setDt d).setSt e) := by
  constructor <;> simp

/-- Settles O57: each timer is ticked by itself, and FAULT is not asked for. -/
theorem tickDecrementsTimers : Obligations.TickDecrementsTimers := fun s =>
  ⟨_, rfl, tickTimer_toNat s.dt, tickTimer_toNat s.st, frame_setDt_setSt s _ _⟩

/-! ### READ_DISPLAY -/

/-- The pixel of linear index y*64 + x is bit x of row y. -/
theorem pixel_linear (scr : Screen) {x y : Nat} (hx : x < 64) (hy : y < 32) :
    Screen.pixel scr (y * 64 + x) = scr[y].getLsbD x := by
  have hlt : y * 64 + x < 2048 := by omega
  have hrow : (y * 64 + x) / 64 = y := by omega
  have hcolumn : (y * 64 + x) % 64 = x := by omega
  simp only [Screen.pixel, dif_pos hlt, hrow, hcolumn]

theorem display_length (s : State) : s.display.length = 2048 := by
  rw [State.display, List.length_map, List.length_range]

/-- READ_DISPLAY's value at a linear index is the pixel of that index. -/
theorem display_getElem? (s : State) {p : Nat} (hp : p < 2048) :
    s.display[p]? = some (BitVec.ofBool (Screen.pixel s.scr p)) := by
  rw [State.display, List.getElem?_map, List.getElem?_range hp, Option.map_some]

/-- Settles O59: the values are listed by linear index, and each is the bit of its row. -/
theorem readDisplayIsLinear : Obligations.ReadDisplayIsLinear := fun s =>
  ⟨rfl, s.display, rfl, display_length s, fun x y hx hy => by
    rw [display_getElem? s (by omega), pixel_linear s.scr hx hy]⟩

end Sys2Proof.Proofs

/-! PROOFS. The encoder and the decoder are inverse (30_encoding.md R94, R95): every instruction's word decodes to it,
and every word that decodes is the word of what it decodes to. -/

namespace Sys2Proof.Proofs

open Sys2Proof Sys2Proof.Machine

/-! ### Decoding an encoding -/

/-- Every instruction's word decodes to it: the lemmas of Laws/PerInstr, put together. -/
theorem decodeWord_encode (i : Instr) : decodeWord (encode i) = .ok i := by
  cases i with
  | nop => exact Laws.WordDecodes.nop
  | cls => exact Laws.WordDecodes.cls
  | ret => exact Laws.WordDecodes.ret
  | jp nnn => exact Laws.WordDecodes.jp nnn
  | call nnn => exact Laws.WordDecodes.call nnn
  | seImm x kk => exact Laws.WordDecodes.seImm x kk
  | sneImm x kk => exact Laws.WordDecodes.sneImm x kk
  | seReg x y => exact Laws.WordDecodes.seReg x y
  | ldImm x kk => exact Laws.WordDecodes.ldImm x kk
  | addImm x kk => exact Laws.WordDecodes.addImm x kk
  | ldReg x y => exact Laws.WordDecodes.ldReg x y
  | orReg x y => exact Laws.WordDecodes.orReg x y
  | andReg x y => exact Laws.WordDecodes.andReg x y
  | xorReg x y => exact Laws.WordDecodes.xorReg x y
  | addReg x y => exact Laws.WordDecodes.addReg x y
  | sub x y => exact Laws.WordDecodes.sub x y
  | shr x y => exact Laws.WordDecodes.shr x y
  | subn x y => exact Laws.WordDecodes.subn x y
  | shl x y => exact Laws.WordDecodes.shl x y
  | sneReg x y => exact Laws.WordDecodes.sneReg x y
  | ldI nnn => exact Laws.WordDecodes.ldI nnn
  | jpV0 nnn => exact Laws.WordDecodes.jpV0 nnn
  | rnd x kk => exact Laws.WordDecodes.rnd x kk
  | drw x y n => exact Laws.WordDecodes.drw x y n
  | skp x => exact Laws.WordDecodes.skp x
  | sknp x => exact Laws.WordDecodes.sknp x
  | ldVDt x => exact Laws.WordDecodes.ldVDt x
  | ldVK x => exact Laws.WordDecodes.ldVK x
  | ldDtV x => exact Laws.WordDecodes.ldDtV x
  | ldStV x => exact Laws.WordDecodes.ldStV x
  | addI x => exact Laws.WordDecodes.addI x
  | ldF x => exact Laws.WordDecodes.ldF x
  | ldB x => exact Laws.WordDecodes.ldB x
  | ldMemStore x => exact Laws.WordDecodes.ldMemStore x
  | ldMemLoad x => exact Laws.WordDecodes.ldMemLoad x

/-- Settles O38: the two bytes are put together to the instruction's word again, and that word decodes. -/
theorem decodeOfEncodeIsIdentity : Obligations.DecodeOfEncodeIsIdentity := by
  intro i rest _
  show decode (firstByte (encode i) :: secondByte (encode i) :: rest) = .ok (i, rest)
  rw [decode, wordOfBytes_bytes, decodeWord_encode]

/-! ### Encoding what was decoded: op by op, since the op nibble fixes the format -/

theorem encode_of_decodeOp0 {w : Word} {i : Instr} (h : decodeOp0 w = .ok i) : encode i = w := by
  unfold decodeOp0 at h
  split_ifs at h with hnop hcls hret <;> cases h
  · exact hnop.symm
  · exact hcls.symm
  · exact hret.symm

/-- Op 8: every arm has format R, and n is the arm's own number. -/
theorem encode_of_decodeOp8 {w : Word} {i : Instr} (hop : fieldOp w = 0x8) (h : decodeOp8 w = .ok i) :
    encode i = w := by
  unfold decodeOp8 at h
  split at h <;> cases h <;> exact formatR_fields w hop ‹_›

/-- Format S: kk is the arm's own number. -/
theorem formatB_function {w : Word} {op : BitVec 4} {kk : Byte} (hop : fieldOp w = op.toNat)
    (hkk : (fieldKk w).toNat = kk.toNat) : formatB op (fieldX w) kk = w :=
  formatB_fields w hop (BitVec.eq_of_toNat_eq hkk)

theorem encode_of_decodeOpE {w : Word} {i : Instr} (hop : fieldOp w = 0xE) (h : decodeOpE w = .ok i) :
    encode i = w := by
  unfold decodeOpE at h
  split at h <;> cases h <;> exact formatB_function hop ‹_›

theorem encode_of_decodeOpF {w : Word} {i : Instr} (hop : fieldOp w = 0xF) (h : decodeOpF w = .ok i) :
    encode i = w := by
  unfold decodeOpF at h
  split at h <;> cases h <;> exact formatB_function hop ‹_›

/-- Settles O39: the arm that answered fixes the op nibble, and each format laid out with the word's own fields is the
word. -/
theorem encodeOfDecodeIsIdentity : Obligations.EncodeOfDecodeIsIdentity := by
  intro w i h
  unfold decodeWord at h
  split at h
  case h_1 => exact encode_of_decodeOp0 h
  case h_9 hop => exact encode_of_decodeOp8 hop h
  case h_15 hop => exact encode_of_decodeOpE hop h
  case h_16 hop => exact encode_of_decodeOpF hop h
  case h_2 hop | h_3 hop | h_11 hop | h_12 hop =>
    cases h
    exact formatA_fields w hop
  case h_4 hop | h_5 hop | h_7 hop | h_8 hop | h_13 hop =>
    cases h
    exact formatB_fields w hop rfl
  case h_6 hop | h_10 hop =>
    split_ifs at h with hn
    cases h
    exact formatR_fields w hop hn
  case h_14 hop =>
    cases h
    exact formatR_fields w hop rfl
  case h_17 => cases h

/-- Settles O41, by running the decoder on the six words. -/
theorem sampleWordsDecode : Obligations.SampleWordsDecode := by
  unfold Obligations.SampleWordsDecode
  decide

end Sys2Proof.Proofs

/-! PROOFS. Calls and returns (40_control_flow.md RET, CALL). -/

namespace Sys2Proof.Proofs

open Sys2Proof Sys2Proof.Machine

theorem frame_refl (regs : List Reg) (parts : List Part) (s : State) : Frame regs parts s s := by
  constructor <;> intros <;> simp

/-- A call with room on the stack: the return address is pushed at STK[SP]. -/
theorem exec_call_room (nnn : Addr) (s : State) (h : s.sp.val < 16) : exec (.call nnn) s =
    .next ((s.setStack (s.stk.set s.sp.val s.pc) ⟨s.sp.val + 1, by omega⟩).setPc (zextAddr nnn)) := by
  rcases execCall_cases nnn s with ⟨hfull, _⟩ | ⟨_, hexec⟩
  · rw [hfull] at h
    exact absurd h (by decide)
  · exact hexec

/-- A return with an entry on the stack: the top is STK[SP-1], and it stays there. -/
theorem exec_ret_nonempty (s : State) (h : 0 < s.sp.val) : exec .ret s =
    .next ((s.setStack s.stk ⟨s.sp.val - 1, by omega⟩).setPc (s.stk[s.sp.val - 1]'(by omega))) := by
  rcases execRet_cases s with ⟨hempty, _⟩ | ⟨_, hexec⟩
  · rw [hempty] at h
    exact absurd h (by decide)
  · exact hexec

/-- Settles O4, by the two cases of Push. -/
theorem callPushesOrIsDropped : Obligations.CallPushesOrIsDropped := by
  intro nnn s
  refine ⟨decodeWord_ofNat_of_encode (Laws.WordDecodes.call nnn) (formatA_toNat 0x2#4 nnn), ?_⟩
  rcases execCall_cases nnn s with ⟨hfull, hexec⟩ | ⟨hroom, hexec⟩
  · refine ⟨s, hexec, fun j hj => ?_, fun _ => rfl, frame_refl _ _ s⟩
    have hsp : s.sp.val = 16 := congrArg Fin.val hfull
    omega
  · refine ⟨_, hexec, fun j hj => ?_, fun hfull => ?_, frame_setStack_setPc s _ _ _⟩
    · refine ⟨zextAddr_toNat nnn, by simp [hj], by simp [hj], fun k hk => ?_⟩
      have hne : j.val ≠ k.val := fun e => hk (Fin.ext e.symm)
      simp [hj, Vector.getElem_set_ne, hne]
    · rw [hfull] at hroom
      exact absurd hroom (by decide)

/-- Settles O6: the entry that the return pops is the one that the call pushed, and the entries below it are the old
ones. -/
theorem returnUndoesCall : Obligations.ReturnUndoesCall := by
  intro nnn s hroom
  refine ⟨_, _, exec_call_room nnn s hroom, exec_ret_nonempty _ (Nat.succ_pos _), ?pc, rfl, fun j hj => ?below, ?frame⟩
  case pc => simp
  case below => simp [Vector.getElem_set_ne, Nat.ne_of_gt hj]
  case frame => constructor <;> simp

end Sys2Proof.Proofs

/-! PROOFS. The rest of the ALU (43_alu.md): the bitwise operations and the random load write one register (and the draw
count), the shifts a register and VF in the order VF_ORDER gives. -/

namespace Sys2Proof.Proofs

open Sys2Proof Sys2Proof.Machine

/-! ### Bitwise operations and the random load -/

/-- An instruction that writes `b` to Vx, where each bit of `b` is `bit`. -/
theorem exec_writes_bits {i : Instr} {s : State} {x : Reg} {b : Byte} {bit : Nat → Bool}
    (hexec : exec i s = .next (s.setReg x b)) (hbit : ∀ j, b.getLsbD j = bit j) :
    ∃ t, exec i s = .next t ∧ Frame [x] [] s t ∧ ∀ j, (t.reg x).getLsbD j = bit j :=
  ⟨_, hexec, frame_setReg s x b, fun j => by rw [State.reg_setReg_same, hbit j]⟩

/-- Settles O17: the frame has VF in it unless x = F. -/
theorem bitwiseOperationsKeepVf : Obligations.BitwiseOperationsKeepVf := fun x y _ =>
  ⟨decodeWord_ofNat_of_encode (Laws.WordDecodes.orReg x y) (formatR_op8_toNat x y 0x1#4),
    decodeWord_ofNat_of_encode (Laws.WordDecodes.andReg x y) (formatR_op8_toNat x y 0x2#4),
    decodeWord_ofNat_of_encode (Laws.WordDecodes.xorReg x y) (formatR_op8_toNat x y 0x3#4),
    exec_writes_bits rfl fun _ => BitVec.getLsbD_or,
    exec_writes_bits rfl fun _ => BitVec.getLsbD_and,
    exec_writes_bits rfl fun _ => BitVec.getLsbD_xor⟩

theorem frame_setReg_setRandCount (s : State) (x : Reg) (b : Byte) (n : Nat) :
    Frame [x] [.rand] s ((s.setReg x b).setRandCount n) := by
  constructor <;> simp +contextual

/-- Settles O24: a bit that is 0 in kk is 0 in the masked draw, whatever was drawn. -/
theorem rndMasksFreshDraw : Obligations.RndMasksFreshDraw := by
  intro x kk s
  refine ⟨decodeWord_ofNat_of_encode (Laws.WordDecodes.rnd x kk) (formatB_toNat 0xC#4 x kk),
    _, rfl, by simp, fun j hj => ?_, rfl, frame_setReg_setRandCount s x _ _⟩
  simp [hj]

/-! ### Shifts -/

theorem frame_shiftWithFlag (s : State) (x : Reg) (shifted : Byte → Byte) (f : Bool) :
    Frame [x, 15] [] s (s.shiftWithFlag x shifted f) := by
  unfold State.shiftWithFlag
  split
  · constructor <;> simp +contextual [State.setFlag_eq, flagReg]
  · exact frame_resultThenFlag s x _ f

theorem shiftWithFlag_mem (s : State) (x : Reg) (shifted : Byte → Byte) (f : Bool) :
    (s.shiftWithFlag x shifted f).mem = s.mem := by
  unfold State.shiftWithFlag
  split <;> rfl

/-- A shift of another register than VF leaves the shifted value in it. -/
theorem shiftWithFlag_reg_result (s : State) {x : Reg} (hx : x ≠ 15) (shifted : Byte → Byte) (f : Bool) :
    (s.shiftWithFlag x shifted f).reg x = shifted (s.reg x) := by
  rw [State.shiftWithFlag_other s shifted f (x := x) hx, State.reg_setReg_same]

/-- A shift of another register than VF leaves the flag in VF. -/
theorem shiftWithFlag_reg_flag (s : State) {x : Reg} (hx : x ≠ 15) (shifted : Byte → Byte) (f : Bool) :
    (s.shiftWithFlag x shifted f).reg 15 = flagByte f := by
  rw [State.shiftWithFlag_other s shifted f (x := x) hx, State.reg_setReg_other _ hx.symm]
  exact State.reg_setReg_same s flagReg _

/-- Settles O21: a right shift by one halves, and 0 and 1 both halve to 0. -/
theorem shrShiftsInPlace : Obligations.ShrShiftsInPlace := by
  intro x y s
  refine ⟨decodeWord_ofNat_of_encode (Laws.WordDecodes.shr x y) (formatR_op8_toNat x y 0x6#4),
    _, rfl, fun hx => ⟨?result, ?flag⟩, ?textOrder, ?flagLast, frame_shiftWithFlag s x _ _⟩
  case result => rw [shiftWithFlag_reg_result s hx, BitVec.toNat_ushiftRight, Nat.shiftRight_eq_div_pow, Nat.pow_one]
  case flag => rw [shiftWithFlag_reg_flag s hx, outRight_toNat]
  case textOrder =>
    rintro rfl horder
    have hhalf : ∀ f, flagByte f >>> 1 = 0x00#8 := by decide
    exact (s.shiftWithFlag_vf_text _ _ horder).trans (hhalf _)
  case flagLast =>
    rintro rfl horder
    exact (congrArg BitVec.toNat (s.shiftWithFlag_vf_last _ _ horder)).trans (outRight_toNat _)

/-- Settles O22: a left shift by one doubles modulo 256, and a flag doubles exactly. -/
theorem shlShiftsInPlace : Obligations.ShlShiftsInPlace := by
  intro x y s
  refine ⟨decodeWord_ofNat_of_encode (Laws.WordDecodes.shl x y) (formatR_op8_toNat x y 0xE#4),
    _, rfl, fun hx => ⟨?result, ?flag⟩, ?textOrder, ?flagLast, frame_shiftWithFlag s x _ _⟩
  case result => rw [shiftWithFlag_reg_result s hx, BitVec.toNat_shiftLeft, Nat.shiftLeft_eq, Nat.pow_one]
  case flag => rw [shiftWithFlag_reg_flag s hx, outLeft_toNat]
  case textOrder =>
    rintro rfl horder
    have hdouble : ∀ f, (flagByte f <<< 1).toNat = (flagByte f).toNat * 2 := by decide
    rw [← outLeft_toNat, ← hdouble]
    exact congrArg BitVec.toNat (s.shiftWithFlag_vf_text _ _ horder)
  case flagLast =>
    rintro rfl horder
    exact (congrArg BitVec.toNat (s.shiftWithFlag_vf_last _ _ horder)).trans (outLeft_toNat _)

end Sys2Proof.Proofs

/-! PROOFS. The index register and the memory block (44_index_memory.md): Fx1E and Fx29 write I, Fx33 and Fx55 store a
run of bytes, Fx65 loads one, and a fetch sees what was stored (20_memory.md R72). -/

namespace Sys2Proof.Proofs

open Sys2Proof Sys2Proof.Machine

/-! ### Instructions that write I -/

/-- Settles O26: addition of words is addition modulo 2^16. -/
theorem addIWrapsWithoutFlag : Obligations.AddIWrapsWithoutFlag := by
  intro x s
  refine ⟨decodeWord_ofNat_of_encode (Laws.WordDecodes.addI x) (formatB_opF_toNat x 0x1E#8),
    _, rfl, ?_, frame_setIndex s _⟩
  rw [State.setIndex_index, BitVec.toNat_add, zextByte_toNat]

/-- Settles O27: five times a byte does not reach 2^16. -/
theorem ldFPointsAtGlyph : Obligations.LdFPointsAtGlyph := fun x s =>
  ⟨decodeWord_ofNat_of_encode (Laws.WordDecodes.ldF x) (formatB_opF_toNat x 0x29#8),
    s.setIndex (glyphAddress (s.reg x)), rfl, glyphAddress_toNat _, frame_setIndex s _⟩

theorem advanceIndex_index_toNat (s : State) (x : Reg) :
    (s.advanceIndex x).index.toNat = (s.index.toNat + x.val + 1) % 65536 := by
  rw [State.advanceIndex_eq, State.setIndex_index, BitVec.toNat_add, BitVec.toNat_ofNat]
  omega

/-! ### Stores -/

theorem frame_setMem (s : State) (m : Memory) : Frame [] [.mem] s (s.setMem m) := by
  constructor <;> simp

theorem frame_setMem_advanceIndex (s : State) (m : Memory) (x : Reg) :
    Frame [] [.mem, .index] s ((s.setMem m).advanceIndex x) := by
  constructor <;> simp [State.advanceIndex_eq]

/-- What a state holds after a store in range: the bytes in order from `a` on, and every other byte as before. -/
theorem writeBytes_stores (s : State) {a : Nat} {bs : List Byte} (h : ∀ r, r < bs.length → a + r ≤ 0xFFF) :
    ∃ m, writeBytes s.config.glyphs s.mem a bs = .ok m ∧
      (∀ j, (hj : j < bs.length) → (s.setMem m).byteAt (a + j) = bs[j]) ∧
      StoresOnly a bs.length s (s.setMem m) := by
  obtain ⟨m, hm, hread, _⟩ := writeBytes_ok (g := s.config.glyphs) (m := s.mem) h
  refine ⟨m, hm, fun j hj => ?_, fun b hb => ?_⟩
  · rw [State.setMem_byteAt, hread, if_pos (Nat.le_add_right a j), Nat.add_sub_cancel_left,
      List.getElem?_eq_getElem hj, Option.getD_some]
  · rw [State.setMem_byteAt, hread]
    split_ifs with hle
    · have hlen : bs.length ≤ b - a := by omega
      rw [List.getElem?_eq_none hlen, Option.getD_none, State.byteAt]
    · rfl

/-- Settles O28: the three digits are stored in order. -/
theorem ldBStoresDecimalDigits : Obligations.LdBStoresDecimalDigits := by
  intro x s
  refine ⟨decodeWord_ofNat_of_encode (Laws.WordDecodes.ldB x) (formatB_opF_toNat x 0x33#8), fun hrange => ?_⟩
  have hlen : (bcdDigits (s.reg x)).length = 3 := rfl
  obtain ⟨m, hm, hbytes, hother⟩ := writeBytes_stores s (a := s.index.toNat) (bs := bcdDigits (s.reg x))
    (fun r hr => by omega)
  refine ⟨s.setMem m, by simp only [exec, execLdB, hm], ?hundreds, ?tens, ?units, hother, frame_setMem s m⟩
  case hundreds => simpa [bcdDigits] using congrArg BitVec.toNat (hbytes 0 (by omega))
  case tens => simpa [bcdDigits] using congrArg BitVec.toNat (hbytes 1 (by omega))
  case units => simpa [bcdDigits] using congrArg BitVec.toNat (hbytes 2 (by omega))

/-- Fx55 in range, through its own meaning: V0..Vx are stored in order from I on, and then I advances. -/
theorem exec_ldMemStore_stores (x : Reg) (s : State) (hrange : s.index.toNat + x.val ≤ 0xFFF) :
    ∃ m, exec (.ldMemStore x) s = .next ((s.setMem m).advanceIndex x) ∧
      (∀ k : Reg, k ≤ x → (s.setMem m).byteAt (s.index.toNat + k.val) = s.reg k) ∧
      StoresOnly s.index.toNat (x.val + 1) s (s.setMem m) := by
  have hlen := s.regBlock_length x
  obtain ⟨m, hm, hbytes, hother⟩ := writeBytes_stores s (a := s.index.toNat) (bs := s.regBlock x)
    (fun r hr => by omega)
  refine ⟨m, by simp only [exec, execLdMemStore, hm], fun k hk => ?_, hlen ▸ hother⟩
  have hk' : k.val < (s.regBlock x).length := by rw [hlen]; exact Nat.lt_succ_of_le hk
  rw [hbytes k.val hk']
  exact (List.getElem_eq_iff hk').mpr (s.regBlock_getElem? x k hk)

/-- Settles O29. -/
theorem ldMemStoreStoresRegisters : Obligations.LdMemStoreStoresRegisters := by
  intro x s
  refine ⟨decodeWord_ofNat_of_encode (Laws.WordDecodes.ldMemStore x) (formatB_opF_toNat x 0x55#8), fun hrange => ?_⟩
  obtain ⟨m, hexec, hbytes, hother⟩ := exec_ldMemStore_stores x s hrange
  exact ⟨_, hexec, hbytes, hother, advanceIndex_index_toNat _ x, frame_setMem_advanceIndex s m x⟩

/-! ### Loads -/

/-- The registers that Fx65 names. -/
def regsUpTo (x : Reg) : List Reg := (List.finRange 16).filter (fun k => decide (k ≤ x))

theorem mem_regsUpTo {x k : Reg} : k ∈ regsUpTo x ↔ k ≤ x := by
  simp [regsUpTo]

/-- What Fx65 leaves in each register: a loaded byte up to Vx, and the old value above. -/
theorem reg_setV_loadBlock (s : State) (x k : Reg) (f : Nat → Byte) :
    (s.setV (loadBlock 0 ((List.range (x.val + 1)).map f) s.v)).reg k = if k ≤ x then f k.val else s.reg k := by
  rw [State.reg, State.setV_v, loadBlock_getElem 0 _ _ k.val k.isLt, if_pos (Nat.zero_le _), Nat.sub_zero,
    List.getElem?_map]
  split_ifs with hk
  · rw [List.getElem?_range (Nat.lt_succ_of_le hk), Option.map_some, Option.getD_some]
  · have hlen : (List.range (x.val + 1)).length ≤ k.val := by
      rw [List.length_range]
      exact Nat.lt_of_not_le hk
    rw [List.getElem?_eq_none hlen, Option.map_none, Option.getD_none, State.reg]

/-- A load of the registers up to Vx alone, and the advance of I. -/
theorem frame_setV_advanceIndex (s : State) (x : Reg) {v : Vector Byte 16}
    (hv : ∀ k, ¬ k ≤ x → (s.setV v).reg k = s.reg k) :
    Frame (regsUpTo x) [.index] s ((s.setV v).advanceIndex x) := by
  constructor
  case reg => exact fun k hk => hv k fun hle => hk (mem_regsUpTo.mpr hle)
  all_goals simp [State.advanceIndex_eq]

/-- Fx65 in range, through its own meaning: the bytes from I on are loaded in order, and then I advances. -/
theorem exec_ldMemLoad_loads (x : Reg) (s : State) (hrange : s.index.toNat + x.val ≤ 0xFFF) :
    ∃ v, exec (.ldMemLoad x) s = .next ((s.setV v).advanceIndex x) ∧
      ∀ k : Reg, (s.setV v).reg k = if k ≤ x then s.byteAt (s.index.toNat + k.val) else s.reg k := by
  have hread := readBytes_ok s (a := s.index.toNat) (n := x.val + 1) (fun r hr => by omega)
  refine ⟨_, ?_, fun k => reg_setV_loadBlock s x k fun r => s.byteAt (s.index.toNat + r)⟩
  simp only [exec, execLdMemLoad, hread]

/-- Settles O30. -/
theorem ldMemLoadLoadsRegisters : Obligations.LdMemLoadLoadsRegisters := by
  intro x s
  refine ⟨decodeWord_ofNat_of_encode (Laws.WordDecodes.ldMemLoad x) (formatB_opF_toNat x 0x65#8), fun hrange => ?_⟩
  obtain ⟨v, hexec, hreg⟩ := exec_ldMemLoad_loads x s hrange
  have hkept : ∀ k : Reg, ¬ k ≤ x → (s.setV v).reg k = s.reg k := fun k hk => (hreg k).trans (if_neg hk)
  exact ⟨_, hexec, fun k hk => (hreg k).trans (if_pos hk), fun k hk => hkept k (not_le.mpr hk),
    advanceIndex_index_toNat _ x, frame_setV_advanceIndex s x hkept⟩

/-! ### What was stored is fetched and loaded -/

/-- Settles O31: the fetch from I + k reads the bytes that Vk and the next register were stored to. -/
theorem storedBytesAreFetched : Obligations.StoredBytesAreFetched := by
  intro x j k s hjx hjk hrange
  obtain ⟨m, hexec, hbytes, _⟩ := exec_ldMemStore_stores x s hrange
  have hj : j.val ≤ x.val := hjx
  have hpc : (s.index + BitVec.ofNat 16 k.val).toNat = s.index.toNat + k.val := by
    rw [BitVec.toNat_add, BitVec.toNat_ofNat]
    omega
  refine ⟨_, hexec, _, fetchWord_ok _ (by show (s.index + BitVec.ofNat 16 k.val).toNat ≤ 0xFFE; omega), ?_⟩
  have hfirst := hbytes k (show k.val ≤ x.val by omega)
  have hsecond := hbytes j hjx
  rw [hjk, ← Nat.add_assoc] at hsecond
  rw [wordOfBytes_toNat, ← hfirst, ← hsecond]
  show ((s.setMem m).byteAt (s.index + BitVec.ofNat 16 k.val).toNat).toNat * 256 +
    ((s.setMem m).byteAt ((s.index + BitVec.ofNat 16 k.val).toNat + 1)).toNat = _
  rw [hpc]

/-- Settles O32: each register up to Vx is loaded from the byte it was stored to, and those above are not touched. -/
theorem loadUndoesStore : Obligations.LoadUndoesStore := by
  intro x s hrange
  obtain ⟨m, hstore, hbytes, _⟩ := exec_ldMemStore_stores x s hrange
  obtain ⟨v, hload, hreg⟩ := exec_ldMemLoad_loads x (s.setMem m) hrange
  have hsame : ∀ k : Reg, ((s.setMem m).setV v).reg k = s.reg k := fun k => by
    rw [hreg k]
    split_ifs with hk
    · exact hbytes k hk
    · rfl
  have hv : v = s.v := Vector.ext fun k hk => hsame ⟨k, hk⟩
  subst hv
  exact ⟨_, _, hstore, hload, rfl, rfl, by constructor <;> simp [State.advanceIndex_eq, State.reg]⟩

end Sys2Proof.Proofs

/-! PROOFS. Display (41_display.md): 00E0, and Dxyn with all its sprite bytes in range. -/

namespace Sys2Proof.Proofs

open Sys2Proof Sys2Proof.Machine

theorem frame_setScr (s : State) (scr : Screen) : Frame [] [.scr] s (s.setScr scr) := by
  constructor <;> simp

/-- Settles O7. -/
theorem clsClearsEveryPixel : Obligations.ClsClearsEveryPixel :=
  ⟨Laws.WordDecodes.cls, fun s => ⟨s.setScr Screen.clear, rfl, fun p _ => Screen.pixel_clear p, frame_setScr s _⟩⟩

/-! ### The sprite -/

/-- The sprite bytes of Dxyn, ascending from I. -/
def spriteBytes (s : State) (n : RowCount) : List Byte :=
  (List.range n.val).map (fun r => s.byteAt (s.index.toNat + r))

theorem spriteBytes_length (s : State) (n : RowCount) : (spriteBytes s n).length = n.val := by
  simp [spriteBytes]

theorem spriteBytes_getElem (s : State) (n : RowCount) {r : Nat} (h : r < (spriteBytes s n).length) :
    (spriteBytes s n)[r] = s.byteAt (s.index.toNat + r) := by
  simp [spriteBytes]

/-- The statement's covered pixels are those of the draw algorithm. -/
theorem spriteCovers_iff {s : State} {x y : Reg} {n : RowCount} {p : Nat} :
    SpriteCovers s x y n p ↔ Covered (s.reg x) (s.reg y) (spriteBytes s n) p := by
  constructor
  · rintro ⟨r, c, hr, hc, hbit, hp⟩
    exact ⟨r, c, by rwa [spriteBytes_length], hc, by rwa [spriteBytes_getElem], hp⟩
  · rintro ⟨r, c, hr, hc, hbit, hp⟩
    exact ⟨r, c, by rwa [spriteBytes_length] at hr, hc, by rwa [spriteBytes_getElem] at hbit, hp⟩

theorem frame_setScr_setFlag (s : State) (scr : Screen) (f : Bool) :
    Frame [15] [.scr] s ((s.setScr scr).setFlag f) := by
  constructor <;> simp +contextual [State.setFlag_eq, flagReg]

theorem setFlag_reg_flag (s : State) (f : Bool) : (s.setFlag f).reg 15 = flagByte f :=
  s.reg_setReg_same flagReg _

/-- Dxyn in range: the covered pixels are flipped, the others kept, and VF is the collision flag. -/
theorem exec_drw_draws (x y : Reg) (n : RowCount) (s : State) (hrange : ∀ r, r < n.val → s.index.toNat + r ≤ 0xFFF) :
    ∃ t, exec (.drw x y n) s = .next t ∧
      (∀ p, SpriteCovers s x y n p → Screen.pixel t.scr p = !Screen.pixel s.scr p) ∧
      (∀ p, ¬ SpriteCovers s x y n p → Screen.pixel t.scr p = Screen.pixel s.scr p) ∧
      ((∃ p, SpriteCovers s x y n p ∧ Screen.pixel s.scr p = true) → t.reg 15 = 0x01#8) ∧
      ((¬ ∃ p, SpriteCovers s x y n p ∧ Screen.pixel s.scr p = true) → t.reg 15 = 0x00#8) ∧
      Frame [15] [.scr] s t := by
  have hread : readBytes s s.index.toNat n.val = .ok (spriteBytes s n) := readBytes_ok s hrange
  have hexec : exec (.drw x y n) s =
      .next ((s.setScr (drawSprite (s.reg x) (s.reg y) (spriteBytes s n) s.scr).1).setFlag
        (drawSprite (s.reg x) (s.reg y) (spriteBytes s n) s.scr).2) := by
    simp only [exec, execDrw, hread]
  have hrows : (spriteBytes s n).length ≤ 15 := by
    rw [spriteBytes_length]
    omega
  have hpixel := drawSprite_pixel (s.reg x) (s.reg y) (spriteBytes s n) s.scr hrows
  have hcollision := drawSprite_collision (s.reg x) (s.reg y) (spriteBytes s n) s.scr hrows
  simp only [spriteCovers_iff]
  refine ⟨_, hexec, fun p => (hpixel p).1, fun p => (hpixel p).2, fun hhit => ?hit, fun hmiss => ?miss,
    frame_setScr_setFlag s _ _⟩
  case hit => rw [setFlag_reg_flag, hcollision.mpr hhit, flagByte, if_pos rfl]
  case miss =>
    rw [setFlag_reg_flag, Bool.eq_false_iff.mpr fun h => hmiss (hcollision.mp h), flagByte, if_neg Bool.false_ne_true]

/-- Settles O8. -/
theorem drwFlipsCoveredPixels : Obligations.DrwFlipsCoveredPixels := by
  intro x y n s
  refine ⟨decodeWord_ofNat_of_encode (Laws.WordDecodes.drw x y n) (formatR_toNat 0xD#4 x y (BitVec.ofFin n)),
    fun hrange => ?_⟩
  obtain ⟨t, hexec, hflip, hkeep, hhit, hmiss, hframe⟩ := exec_drw_draws x y n s hrange
  exact ⟨t, hexec, fun p _ => hflip p, fun p _ => hkeep p, hhit, hmiss, hframe⟩

/-! ### Two draws -/

/-- What two updates both leave unchanged, the one after the other leaves unchanged. -/
theorem frame_trans {regs : List Reg} {parts : List Part} {s t u : State} (h : Frame regs parts s t)
    (h' : Frame regs parts t u) : Frame regs parts s u where
  reg r hr := (h'.reg r hr).trans (h.reg r hr)
  index hp := (h'.index hp).trans (h.index hp)
  pc hp := (h'.pc hp).trans (h.pc hp)
  stack hp := ⟨(h'.stack hp).1.trans (h.stack hp).1, (h'.stack hp).2.trans (h.stack hp).2⟩
  dt hp := (h'.dt hp).trans (h.dt hp)
  st hp := (h'.st hp).trans (h.st hp)
  mem hp a := (h'.mem hp a).trans (h.mem hp a)
  scr hp := (h'.scr hp).trans (h.scr hp)
  key hp := (h'.key hp).trans (h.key hp)
  fault hp := (h'.fault hp).trans (h.fault hp)
  rand hp := (h'.rand hp).trans (h.rand hp)
  config := h'.config.trans h.config

/-- A framebuffer that ends as it was need not be named. -/
theorem frame_drop_scr {regs : List Reg} {s t : State} (h : Frame regs [.scr] s t) (hscr : t.scr = s.scr) :
    Frame regs [] s t := by
  obtain ⟨hreg, hindex, hpc, hstack, hdt, hst, hmem, _, hkey, hfault, hrand, hconfig⟩ := h
  constructor <;> simp_all

/-- Which pixels a draw covers depends on I, memory and the two coordinates alone. -/
theorem spriteCovers_congr {s t : State} {x y : Reg} {n : RowCount} (hindex : t.index = s.index)
    (hbyte : ∀ a, t.byteAt a = s.byteAt a) (hx : t.reg x = s.reg x) (hy : t.reg y = s.reg y) (p : Nat) :
    SpriteCovers t x y n p ↔ SpriteCovers s x y n p := by
  simp only [SpriteCovers, hindex, hbyte, hx, hy]

/-- VF put back for a second draw: a coordinate register reads as before the first. -/
theorem reg_setReg_vf {s t : State} {parts : List Part} (hframe : Frame [15] parts s t) {x : Reg} {vf : Byte}
    (hvf : x = 15 → vf = s.reg 15) : (t.setReg 15 vf).reg x = s.reg x := by
  rw [State.reg_setReg]
  split_ifs with hx
  · rw [hvf hx, hx]
  · exact hframe.reg x (List.mem_singleton.not.mpr hx)

/-- Settles O9: the second draw covers the pixels of the first, flips each back, and collides where the first draw has
set a pixel, which is where it was clear before. -/
theorem drawingTwiceRestoresScreen : Obligations.DrawingTwiceRestoresScreen := by
  intro x y n vf s hvf hrange
  obtain ⟨t, hfirst, hflip, hkeep, _, _, hframe⟩ := exec_drw_draws x y n s hrange
  have hindex : (t.setReg 15 vf).index = s.index := hframe.index (by decide)
  obtain ⟨u, hsecond, hflip', hkeep', hhit, hmiss, hframe'⟩ :=
    exec_drw_draws x y n (t.setReg 15 vf) (by rwa [hindex])
  have hcovers := spriteCovers_congr (n := n) hindex (hframe.mem (by decide))
    (reg_setReg_vf hframe fun hx => hvf (.inl hx)) (reg_setReg_vf hframe fun hy => hvf (.inr hy))
  simp only [hcovers, State.setReg_scr] at hflip' hkeep' hhit hmiss
  have hclear : (∃ p, SpriteCovers s x y n p ∧ Screen.pixel t.scr p = true) ↔
      ∃ p, SpriteCovers s x y n p ∧ Screen.pixel s.scr p = false :=
    exists_congr fun p => and_congr_right fun hp => by rw [hflip p hp, Bool.not_eq_true']
  rw [hclear] at hhit hmiss
  have hrestored : u.scr = s.scr := Screen.ext_pixel fun p _ => by
    by_cases hp : SpriteCovers s x y n p
    · rw [hflip' p hp, hflip p hp, Bool.not_not]
    · rw [hkeep' p hp, hkeep p hp]
  have hputBack : Frame [15] [.scr] t (t.setReg 15 vf) := by constructor <;> simp +contextual
  exact ⟨t, u, hfirst, hsecond, hrestored, hhit, hmiss,
    frame_drop_scr (frame_trans (frame_trans hframe hputBack) hframe') hrestored⟩

end Sys2Proof.Proofs

/-! PROOFS. The keypad (45_keypad_timers.md), and where the six instructions that can fault do so (60_exceptions.md R242
to R246). -/

namespace Sys2Proof.Proofs

open Sys2Proof Sys2Proof.Machine

/-! ### Fault entry, with the instruction's word as a number -/

theorem encode_eq_ofNat {i : Instr} {n : Nat} (hn : (encode i).toNat = n) : encode i = BitVec.ofNat 16 n := by
  rw [← hn, BitVec.ofNat_toNat, BitVec.setWidth_eq]

/-- An instruction that raises DataRange enters the fault with its own word recorded. -/
theorem tookFault_of_raiseDataRange {i : Instr} {s : State} {addr n : Nat} (hexec : exec i s = raiseDataRange i addr s)
    (hn : (encode i).toNat = n) :
    ∃ t, exec i s = .next t ∧ TookFault (.dataRange (s.pc - 2#16) (BitVec.ofNat 16 n) addr) s t := by
  rw [hexec, ← encode_eq_ofNat hn]
  exact takeFault_tookFault _ s

/-- An instruction that raises KeyRange enters the fault with its own word recorded. -/
theorem tookFault_of_raiseKeyRange {i : Instr} {s : State} {key : Byte} {n : Nat}
    (hexec : exec i s = raiseKeyRange i key s) (hn : (encode i).toNat = n) :
    ∃ t, exec i s = .next t ∧ TookFault (.keyRange (s.pc - 2#16) (BitVec.ofNat 16 n) key) s t := by
  rw [hexec, ← encode_eq_ofNat hn]
  exact takeFault_tookFault _ s

/-- The number of a word of op E, as the spec writes it: the low byte is a part of the constant. -/
theorem formatB_opE_toNat (x : Reg) (kk : Byte) :
    (formatB 0xE#4 x kk).toNat = 0xE000 + kk.toNat + x.val * 0x100 := by
  have hop : (0xE#4).toNat = 14 := rfl
  rw [formatB_toNat, hop]
  omega

/-! ### Out of range -/

/-- A run of reads reports the first address above 0xFFF. -/
theorem readBytes_firstOutOfRange {s : State} {lo n addr : Nat} (h : FirstOutOfRange lo n addr) :
    readBytes s lo n = .error addr := by
  obtain ⟨hlo, hlt, hbad, hfirst⟩ := h
  exact readBytes_error s hlo hlt hbad hfirst

/-- A run of writes reports the first address above 0xFFF. -/
theorem writeBytes_firstOutOfRange {g : GlyphTable} {m : Memory} {lo addr : Nat} {bs : List Byte}
    (h : FirstOutOfRange lo bs.length addr) : writeBytes g m lo bs = .error addr := by
  obtain ⟨hlo, hlt, hbad, hfirst⟩ := h
  exact writeBytes_error hlo hlt hbad hfirst

/-- Settles O47. -/
theorem outOfRangeAccessFaults : Obligations.OutOfRangeAccessFaults := by
  intro x y n s addr
  refine ⟨fun h => ?drw, fun h => ?ldB, fun h => ?ldMemStore, fun h => ?ldMemLoad⟩
  case drw =>
    refine tookFault_of_raiseDataRange ?_ (formatR_toNat 0xD#4 x y (BitVec.ofFin n))
    simp only [exec, execDrw, readBytes_firstOutOfRange h]
  case ldB =>
    refine tookFault_of_raiseDataRange ?_ (formatB_opF_toNat x 0x33#8)
    simp only [exec, execLdB, writeBytes_firstOutOfRange (bs := bcdDigits (s.reg x)) h]
  case ldMemStore =>
    refine tookFault_of_raiseDataRange ?_ (formatB_opF_toNat x 0x55#8)
    rw [← s.regBlock_length x] at h
    simp only [exec, execLdMemStore, writeBytes_firstOutOfRange h]
  case ldMemLoad =>
    refine tookFault_of_raiseDataRange ?_ (formatB_opF_toNat x 0x65#8)
    simp only [exec, execLdMemLoad, readBytes_firstOutOfRange h]

/-! ### Keys -/

/-- Settles O33: a byte up to 15 names its key, and both skips test it; a byte above names none. -/
theorem skpAndSknpTestTheNamedKey : Obligations.SkpAndSknpTestTheNamedKey := by
  intro x s
  refine ⟨decodeWord_ofNat_of_encode (Laws.WordDecodes.skp x) (formatB_opE_toNat x 0x9E#8),
    decodeWord_ofNat_of_encode (Laws.WordDecodes.sknp x) (formatB_opE_toNat x 0xA1#8),
    fun k hk => ?named, fun hk => ?none⟩
  case named =>
    have hnamed : s.keyNamed (s.reg x) = some s.key[k.val] := by
      rw [s.keyNamed_some _ (by omega)]
      simp only [hk]
    refine ⟨exec_skips_of_test (c := s.key[k.val]) ?_ id id,
      exec_skips_of_test (c := !s.key[k.val]) ?_ (fun h => by rw [h]; rfl) (fun h => by rw [h]; rfl)⟩
    · simp only [exec, execSkp, hnamed]
    · simp only [exec, execSknp, hnamed]
  case none =>
    have hnone := s.keyNamed_none (s.reg x) hk
    refine ⟨tookFault_of_raiseKeyRange ?_ (formatB_opE_toNat x 0x9E#8),
      tookFault_of_raiseKeyRange ?_ (formatB_opE_toNat x 0xA1#8)⟩
    · simp only [exec, execSkp, hnone]
    · simp only [exec, execSknp, hnone]

/-- Settles O35: a key that is pressed with none above it is the one the scan finds. -/
theorem ldVKWaitsForHighestKey : Obligations.LdVKWaitsForHighestKey := by
  intro x s
  refine ⟨decodeWord_ofNat_of_encode (Laws.WordDecodes.ldVK x) (formatB_opF_toNat x 0x0A#8),
    fun k hpressed hhighest => ?found, fun hnone => ?waits⟩
  case found =>
    rcases execLdVK_cases x s with ⟨k', hpressed', hhighest', hexec⟩ | ⟨hnone, _⟩
    · have hle : k' ≤ k := not_lt.mp fun h => by simp [hhighest k' h] at hpressed'
      have hge : k ≤ k' := not_lt.mp fun h => by simp [hhighest' k h] at hpressed
      have heq : k' = k := le_antisymm hle hge
      subst heq
      refine ⟨_, hexec, ?_, frame_setReg s x _⟩
      rw [State.reg_setReg_same, BitVec.toNat_ofNat]
      omega
    · simp [hnone k] at hpressed
  case waits =>
    rcases execLdVK_cases x s with ⟨k, hpressed, _, _⟩ | ⟨_, hexec⟩
    · simp [hnone k] at hpressed
    · exact ⟨_, hexec, rfl, frame_setPc s _⟩

end Sys2Proof.Proofs

/-! PROOFS. Everything one instruction can do (10_state.md R25 to R37, 60_exceptions.md R242 to R246): it faults for one
of the six causes, or it completes, writing only the registers and parts of its row. The statements about every
instruction follow from this one case analysis. -/

namespace Sys2Proof.Proofs

open Sys2Proof Sys2Proof.Machine

/-! ### What an instruction may write -/

/-- The general registers that the instruction writes when it completes. -/
def writtenRegs : Instr → List Reg
  | .ldImm x _ | .addImm x _ | .rnd x _ | .ldReg x _ | .orReg x _ | .andReg x _ | .xorReg x _
  | .ldVDt x | .ldVK x => [x]
  | .addReg x _ | .sub x _ | .subn x _ | .shr x _ | .shl x _ => [x, 15]
  | .drw _ _ _ => [15]
  | .ldMemLoad x => regsUpTo x
  | _ => []

/-- The parts of the state that the instruction writes when it completes. -/
def writtenParts : Instr → List Part
  | .cls | .drw _ _ _ => [.scr]
  | .ret | .call _ => [.pc, .stack]
  | .jp _ | .jpV0 _ | .seImm _ _ | .sneImm _ _ | .seReg _ _ | .sneReg _ _ | .skp _ | .sknp _ | .ldVK _ => [.pc]
  | .rnd _ _ => [.rand]
  | .ldI _ | .addI _ | .ldF _ | .ldMemLoad _ => [.index]
  | .ldDtV _ => [.dt]
  | .ldStV _ => [.st]
  | .ldB _ => [.mem]
  | .ldMemStore _ => [.mem, .index]
  | _ => []

/-- The six skips (42_skips.md R160, 45_keypad_timers.md R220, R221). -/
def isSkip : Instr → Bool
  | .seImm _ _ | .sneImm _ _ | .seReg _ _ | .sneReg _ _ | .skp _ | .sknp _ => true
  | _ => false

/-- The address to which an instruction that completes in `s` moves pc. -/
inductive MovesPc (s : State) : Instr → Word → Prop where
  | retEmpty : MovesPc s .ret 0x0000#16
  | retEntry (h : 0 < s.sp.val) : MovesPc s .ret (s.stk[s.sp.val - 1]'(by omega))
  | jp (nnn : Addr) : MovesPc s (.jp nnn) (zextAddr nnn)
  | call (nnn : Addr) : MovesPc s (.call nnn) (zextAddr nnn)
  | jpV0 (nnn : Addr) : MovesPc s (.jpV0 nnn) (zextAddr nnn + zextByte s.v0)
  | skip {i : Instr} (h : isSkip i = true) : MovesPc s i (s.pc + 2#16)
  | wait (x : Reg) : MovesPc s (.ldVK x) (s.pc - 2#16)

/-- The instruction's own fault in `s`: its cause is present, and `record` is what FAULT then holds. -/
inductive Faults (s : State) : Instr → FaultRecord → Prop where
  | drw (x y : Reg) (n : RowCount) (addr : Nat) (h : FirstOutOfRange s.index.toNat n.val addr) :
    Faults s (.drw x y n) (.dataRange s.fetchedFrom (encode (.drw x y n)) addr)
  | ldB (x : Reg) (addr : Nat) (h : FirstOutOfRange s.index.toNat 3 addr) :
    Faults s (.ldB x) (.dataRange s.fetchedFrom (encode (.ldB x)) addr)
  | ldMemStore (x : Reg) (addr : Nat) (h : FirstOutOfRange s.index.toNat (x.val + 1) addr) :
    Faults s (.ldMemStore x) (.dataRange s.fetchedFrom (encode (.ldMemStore x)) addr)
  | ldMemLoad (x : Reg) (addr : Nat) (h : FirstOutOfRange s.index.toNat (x.val + 1) addr) :
    Faults s (.ldMemLoad x) (.dataRange s.fetchedFrom (encode (.ldMemLoad x)) addr)
  | skp (x : Reg) (h : 0xF < (s.reg x).toNat) :
    Faults s (.skp x) (.keyRange s.fetchedFrom (encode (.skp x)) (s.reg x))
  | sknp (x : Reg) (h : 0xF < (s.reg x).toNat) :
    Faults s (.sknp x) (.keyRange s.fetchedFrom (encode (.sknp x)) (s.reg x))

/-- From `s` to `t` nothing changed but what the instruction writes, where memory is compared as data too, and pc is
where the instruction may move it. -/
structure Completes (i : Instr) (s t : State) : Prop where
  frame : Frame (writtenRegs i) (writtenParts i) s t
  mem : Part.mem ∉ writtenParts i → t.mem = s.mem
  pc : t.pc = s.pc ∨ MovesPc s i t.pc

/-! ### The case analysis -/

/-- The two ways an instruction can end. -/
def Ends (i : Instr) (s : State) : Prop :=
  (∃ t, exec i s = .next t ∧ Completes i s t) ∨
  ∃ record, Faults s i record ∧ exec i s = takeFault s.fetchedFrom record s

section
variable {i : Instr} {s t : State}

/-- An instruction that leaves pc and memory where they are. -/
theorem ends_of_frame (hexec : exec i s = .next t) (hframe : Frame (writtenRegs i) (writtenParts i) s t)
    (hmem : t.mem = s.mem) (hpc : t.pc = s.pc) : Ends i s :=
  .inl ⟨t, hexec, hframe, fun _ => hmem, .inl hpc⟩

/-- An instruction that moves pc and leaves memory. -/
theorem ends_of_movesPc (hexec : exec i s = .next t) (hframe : Frame (writtenRegs i) (writtenParts i) s t)
    (hmem : t.mem = s.mem) (hpc : MovesPc s i t.pc) : Ends i s :=
  .inl ⟨t, hexec, hframe, fun _ => hmem, .inr hpc⟩

/-- A skip, whatever its test answers. -/
theorem ends_of_skipIf {c : Bool} (hexec : exec i s = .next (s.skipIf c)) (hskip : isSkip i = true)
    (hframe : Frame (writtenRegs i) (writtenParts i) s (s.skipIf c)) : Ends i s := by
  cases c with
  | false => exact ends_of_frame hexec hframe rfl rfl
  | true => exact ends_of_movesPc hexec hframe rfl (.skip hskip)

theorem ends_of_fault {record : FaultRecord} (hfault : Faults s i record)
    (hexec : exec i s = takeFault s.fetchedFrom record s) : Ends i s :=
  .inr ⟨record, hfault, hexec⟩

end

/-- Every instruction, in every state, completes within its row or faults for its own cause. -/
theorem exec_ends (i : Instr) (s : State) : Ends i s := by
  cases i with
  | nop => exact ends_of_frame rfl (frame_refl _ _ s) rfl rfl
  | cls => exact ends_of_frame rfl (frame_setScr s _) rfl rfl
  | ret =>
    rcases execRet_cases s with ⟨_, hexec⟩ | ⟨hpos, hexec⟩
    · exact ends_of_movesPc hexec (frame_setStack_setPc s s.stk s.sp _) rfl .retEmpty
    · exact ends_of_movesPc hexec (frame_setStack_setPc s _ _ _) rfl (.retEntry hpos)
  | jp nnn => exact ends_of_movesPc rfl (frame_setPc s _) rfl (.jp nnn)
  | call nnn =>
    rcases execCall_cases nnn s with ⟨_, hexec⟩ | ⟨_, hexec⟩
    · exact ends_of_frame hexec (frame_refl _ _ s) rfl rfl
    · exact ends_of_movesPc hexec (frame_setStack_setPc s _ _ _) rfl (.call nnn)
  | jpV0 nnn => exact ends_of_movesPc rfl (frame_setPc s _) rfl (.jpV0 nnn)
  | seImm | sneImm | seReg | sneReg => exact ends_of_skipIf rfl rfl (frame_skipIf s _)
  | ldImm x _ | addImm x _ | ldReg x _ | orReg x _ | andReg x _ | xorReg x _ | ldVDt x =>
    exact ends_of_frame rfl (frame_setReg s x _) rfl rfl
  | addReg x _ | sub x _ | subn x _ => exact ends_of_frame rfl (frame_resultThenFlag s x _ _) rfl rfl
  | shr x y | shl x y =>
    have hframe := frame_shiftWithFlag s x
    exact ends_of_frame rfl (hframe _ _) (shiftWithFlag_mem s x _ _) ((hframe _ _).pc List.not_mem_nil)
  | rnd x kk => exact ends_of_frame rfl (frame_setReg_setRandCount s x _ _) rfl rfl
  | ldI | addI | ldF => exact ends_of_frame rfl (frame_setIndex s _) rfl rfl
  | ldDtV x => exact ends_of_frame rfl (frame_setDt s _) rfl rfl
  | ldStV x => exact ends_of_frame rfl (frame_setSt s _) rfl rfl
  | ldVK x =>
    rcases execLdVK_cases x s with ⟨k, _, _, hexec⟩ | ⟨_, hexec⟩
    · exact ends_of_frame hexec (by constructor <;> simp +contextual [writtenRegs]) rfl rfl
    · exact ends_of_movesPc hexec (by constructor <;> simp [writtenParts]) rfl (.wait x)
  | skp x =>
    rcases execSkp_cases x s with ⟨_, hexec⟩ | ⟨hkey, hexec⟩
    · exact ends_of_skipIf hexec rfl (frame_skipIf s _)
    · exact ends_of_fault (.skp x hkey) hexec
  | sknp x =>
    rcases execSknp_cases x s with ⟨_, hexec⟩ | ⟨hkey, hexec⟩
    · exact ends_of_skipIf hexec rfl (frame_skipIf s _)
    · exact ends_of_fault (.sknp x hkey) hexec
  | drw x y n =>
    rcases execDrw_cases x y n s with ⟨_, _, hexec⟩ | ⟨addr, hrange, hexec⟩
    · exact ends_of_frame hexec (frame_setScr_setFlag s _ _) rfl rfl
    · exact ends_of_fault (.drw x y n addr hrange) hexec
  | ldB x =>
    rcases execLdB_cases x s with ⟨m, _, hexec⟩ | ⟨addr, hrange, hexec⟩
    · exact .inl ⟨_, hexec, frame_setMem s m, fun h => absurd (List.mem_singleton.mpr rfl) h, .inl rfl⟩
    · exact ends_of_fault (.ldB x addr hrange) hexec
  | ldMemStore x =>
    rcases execLdMemStore_cases x s with ⟨m, _, hexec⟩ | ⟨addr, hrange, hexec⟩
    · exact .inl ⟨_, hexec, frame_setMem_advanceIndex s m x, fun h => absurd List.mem_cons_self h, .inl rfl⟩
    · exact ends_of_fault (.ldMemStore x addr hrange) hexec
  | ldMemLoad x =>
    rcases readBytes_cases s s.index.toNat (x.val + 1) with ⟨hrange, _⟩ | ⟨addr, hlo, hlt, hbad, hfirst, hread⟩
    · obtain ⟨v, hexec, hreg⟩ := exec_ldMemLoad_loads x s (hrange x.val (Nat.lt_succ_self _))
      exact ends_of_frame hexec (frame_setV_advanceIndex s x fun k hk => (hreg k).trans (if_neg hk)) rfl rfl
    · refine ends_of_fault (.ldMemLoad x addr ⟨hlo, hlt, hbad, hfirst⟩) ?_
      simp only [exec, execLdMemLoad, hread]
      rfl

end Sys2Proof.Proofs

/-! PROOFS. The statements about every instruction and every step: the writers of each part, the faults and their
entry. -/

namespace Sys2Proof.Proofs

open Sys2Proof Sys2Proof.Machine

/-- The state after fault entry (60_exceptions.md R244). -/
def faultedWith (record : FaultRecord) (s : State) : State := (s.setPc s.fetchedFrom).setFault (some record)

theorem tookFault_faultedWith (record : FaultRecord) (s : State) : TookFault record s (faultedWith record s) := by
  obtain ⟨t, hnext, htook⟩ := takeFault_tookFault record s
  cases hnext
  exact htook

/-- The next state of an instruction: the instruction completed, or it is the state after its own fault. -/
theorem exec_next_cases {i : Instr} {s t : State} (h : exec i s = .next t) :
    Completes i s t ∨ ∃ record, Faults s i record ∧ t = faultedWith record s := by
  rcases exec_ends i s with ⟨u, hexec, hcompletes⟩ | ⟨record, hfault, hexec⟩
  · cases h.symm.trans hexec
    exact .inl hcompletes
  · cases h.symm.trans hexec
    exact .inr ⟨record, hfault, rfl⟩

/-! ### Faults -/

theorem fault_not_mem_writtenParts (i : Instr) : Part.fault ∉ writtenParts i := by
  cases i <;> simp [writtenParts]

theorem Completes.fault_eq {i : Instr} {s t : State} (h : Completes i s t) : t.fault = s.fault :=
  h.frame.fault (fault_not_mem_writtenParts i)

/-- Settles O48: an instruction that completes keeps FAULT, and the causes are those of the six instructions. -/
theorem onlySixInstructionsFault : Obligations.OnlySixInstructionsFault := by
  intro i s t hexec hchanged
  rcases exec_next_cases hexec with hcompletes | ⟨record, hfault, rfl⟩
  · exact absurd hcompletes.fault_eq hchanged
  · have htook := tookFault_faultedWith record s
    cases hfault with
    | drw x y n addr h => exact .inl ⟨x, y, n, addr, rfl, h, htook⟩
    | ldB x addr h => exact .inr (.inl ⟨x, addr, rfl, h, htook⟩)
    | ldMemStore x addr h => exact .inr (.inr (.inl ⟨x, addr, .inl rfl, h, htook⟩))
    | ldMemLoad x addr h => exact .inr (.inr (.inl ⟨x, addr, .inr rfl, h, htook⟩))
    | skp x h => exact .inr (.inr (.inr ⟨x, .inl rfl, h, htook⟩))
    | sknp x h => exact .inr (.inr (.inr ⟨x, .inr rfl, h, htook⟩))

theorem exec_answers (i : Instr) (s : State) : ∃ t, exec i s = .next t := by
  rcases exec_ends i s with ⟨t, hexec, _⟩ | ⟨record, _, hexec⟩
  · exact ⟨t, hexec⟩
  · exact ⟨faultedWith record s, hexec⟩

/-- Settles O44, by the four cases of a step. -/
theorem stepAlwaysAnswersAState : Obligations.StepAlwaysAnswersAState := by
  intro s
  rcases step_cases s with ⟨_, hstep⟩ | ⟨_, _, hstep⟩ | ⟨_, _, _, i, _, _, hstep⟩ | ⟨_, _, _, _, _, _, hstep⟩
  · exact ⟨s, hstep⟩
  · exact ⟨_, hstep⟩
  · rw [hstep]
    exact exec_answers i _
  · exact ⟨_, hstep⟩

theorem fetchedFrom_advancePc (s : State) : s.advancePc.fetchedFrom = s.pc := BitVec.add_sub_cancel s.pc 2#16

/-- A fault of the instruction fetched from pc, taken after pc advanced, is the fault taken at pc. -/
theorem faultedWith_advancePc (record : FaultRecord) (s : State) :
    faultedWith record s.advancePc = s.setFault (some record) := by
  rw [faultedWith, fetchedFrom_advancePc]
  rfl

theorem frame_setFault (s : State) (f : Option FaultRecord) : Frame [] [.fault] s (s.setFault f) := by
  constructor <;> simp

/-- A step that faults sets FAULT and does nothing else. -/
theorem step_faults_eq {s t : State} (hnone : s.fault = none) (hstep : step s = .next t) (hfault : t.fault ≠ none) :
    ∃ record, t = s.setFault (some record) := by
  rcases step_cases s with ⟨hset, _⟩ | ⟨_, _, h⟩ | ⟨_, _, _, i, _, _, h⟩ | ⟨_, _, _, _, _, _, h⟩
  · exact absurd hnone hset
  · cases hstep.symm.trans h
    exact ⟨_, rfl⟩
  · rcases exec_next_cases (h.symm.trans hstep) with hcompletes | ⟨record, _, rfl⟩
    · exact absurd (hcompletes.fault_eq.trans hnone) hfault
    · exact ⟨record, faultedWith_advancePc record s⟩
  · cases hstep.symm.trans h
    exact absurd hnone hfault

/-- Settles O46. -/
theorem faultEntryIsPrecise : Obligations.FaultEntryIsPrecise := by
  intro s t hnone hstep hfault
  obtain ⟨record, rfl⟩ := step_faults_eq hnone hstep hfault
  exact ⟨frame_setFault s _, rfl⟩

/-! ### Writers -/

section
variable {i : Instr}

theorem writer_of_index (h : Part.index ∈ writtenParts i) :
    (∃ nnn, i = .ldI nnn) ∨ (∃ x, i = .addI x) ∨ (∃ x, i = .ldF x) ∨ (∃ x, i = .ldMemStore x) ∨
      ∃ x, i = .ldMemLoad x := by
  cases i <;> simp_all [writtenParts]

theorem writer_of_stack (h : Part.stack ∈ writtenParts i) : i = .ret ∨ ∃ nnn, i = .call nnn := by
  cases i <;> simp_all [writtenParts]

theorem writer_of_dt (h : Part.dt ∈ writtenParts i) : ∃ x, i = .ldDtV x := by
  cases i <;> simp_all [writtenParts]

theorem writer_of_st (h : Part.st ∈ writtenParts i) : ∃ x, i = .ldStV x := by
  cases i <;> simp_all [writtenParts]

theorem writer_of_mem (h : Part.mem ∈ writtenParts i) : (∃ x, i = .ldB x) ∨ ∃ x, i = .ldMemStore x := by
  cases i <;> simp_all [writtenParts]

theorem writer_of_scr (h : Part.scr ∈ writtenParts i) : i = .cls ∨ ∃ x y n, i = .drw x y n := by
  cases i <;> simp_all [writtenParts]

theorem key_not_mem_writtenParts (i : Instr) : Part.key ∉ writtenParts i := by
  cases i <;> simp [writtenParts]

theorem isSkip_iff : isSkip i = true ↔
    (∃ x kk, i = .seImm x kk) ∨ (∃ x kk, i = .sneImm x kk) ∨ (∃ x y, i = .seReg x y) ∨ (∃ x y, i = .sneReg x y) ∨
      (∃ x, i = .skp x) ∨ ∃ x, i = .sknp x := by
  cases i <;> simp [isSkip]

end

/-- A part is kept, or the instruction is one of those that write it. -/
theorem kept_or_writer {part : Part} {i : Instr} {kept writer : Prop} (hkept : part ∉ writtenParts i → kept)
    (hwriter : part ∈ writtenParts i → writer) : kept ∨ writer := by
  by_cases h : part ∈ writtenParts i
  · exact .inr (hwriter h)
  · exact .inl (hkept h)

/-- Settles O49: part by part, from what an instruction that completes may write; a fault moves pc alone. -/
theorem eachPartHasOnlyItsWriters : Obligations.EachPartHasOnlyItsWriters := by
  intro i s t hexec
  rcases exec_next_cases hexec with ⟨hframe, hmem, hpc⟩ | ⟨record, _, rfl⟩
  · refine ⟨kept_or_writer hframe.index writer_of_index, ?pc, kept_or_writer hframe.stack writer_of_stack,
      kept_or_writer hframe.dt writer_of_dt, kept_or_writer hframe.st writer_of_st,
      kept_or_writer hmem writer_of_mem, kept_or_writer hframe.scr writer_of_scr,
      hframe.key (key_not_mem_writtenParts i), hframe.config⟩
    case pc =>
      refine hpc.imp_right fun hmoves => ?_
      generalize t.pc = a at hmoves
      cases hmoves with
      | retEmpty | retEntry => exact .inl rfl
      | jp nnn => exact .inr (.inl ⟨nnn, rfl⟩)
      | call nnn => exact .inr (.inr (.inl ⟨nnn, rfl⟩))
      | jpV0 nnn => exact .inr (.inr (.inr (.inl ⟨nnn, rfl⟩)))
      | skip hskip => exact .inr (.inr (.inr (.inr (.inl ⟨rfl, isSkip_iff.mp hskip⟩))))
      | wait x => exact .inr (.inr (.inr (.inr (.inr ⟨rfl, .inl ⟨x, rfl⟩⟩))))
  · have hfault : (faultedWith record s).fault ≠ none := Option.some_ne_none record
    exact ⟨.inl rfl, .inr (.inr (.inr (.inr (.inr (.inr ⟨rfl, .inr hfault⟩))))), .inl ⟨rfl, rfl⟩, .inl rfl, .inl rfl,
      .inl rfl, .inl rfl, rfl, rfl⟩

/-- VF is written as a flag, or the x field names it. -/
theorem writer_of_vf {i : Instr} (h : (15 : Reg) ∈ writtenRegs i) :
    (∃ x y, i = .addReg x y ∨ i = .sub x y ∨ i = .shr x y ∨ i = .subn x y ∨ i = .shl x y) ∨
    (∃ x y n, i = .drw x y n) ∨
    (∃ kk, i = .ldImm 15 kk ∨ i = .addImm 15 kk ∨ i = .rnd 15 kk) ∨
    (∃ y, i = .ldReg 15 y ∨ i = .orReg 15 y ∨ i = .andReg 15 y ∨ i = .xorReg 15 y) ∨
    i = .ldVDt 15 ∨ i = .ldVK 15 ∨ i = .ldMemLoad 15 := by
  cases i with
  | addReg x y | sub x y | shr x y | subn x y | shl x y => exact .inl ⟨x, y, by simp⟩
  | drw x y n => exact .inr (.inl ⟨x, y, n, rfl⟩)
  | ldImm x kk | addImm x kk | rnd x kk =>
    obtain rfl : x = 15 := (List.mem_singleton.mp h).symm
    exact .inr (.inr (.inl ⟨kk, by simp⟩))
  | ldReg x y | orReg x y | andReg x y | xorReg x y =>
    obtain rfl : x = 15 := (List.mem_singleton.mp h).symm
    exact .inr (.inr (.inr (.inl ⟨y, by simp⟩)))
  | ldVDt x | ldVK x =>
    obtain rfl : x = 15 := (List.mem_singleton.mp h).symm
    simp
  | ldMemLoad x =>
    obtain rfl : x = 15 := Fin.last_le_iff.mp (mem_regsUpTo.mp h)
    simp
  | _ => exact absurd h List.not_mem_nil

/-- Settles O51: an instruction that changes VF completes, and VF is among the registers it writes. -/
theorem vfIsWrittenOnlyAsFlagOrByName : Obligations.VfIsWrittenOnlyAsFlagOrByName := by
  intro i s t hexec hchanged
  refine writer_of_vf (by_contra fun hnot => ?_)
  rcases exec_next_cases hexec with hcompletes | ⟨record, _, rfl⟩
  · exact hchanged (hcompletes.frame.reg 15 hnot)
  · exact hchanged rfl

end Sys2Proof.Proofs

/-! PROOFS. What no instruction reads: ST (10_state.md R31), and, but for the shifts of VF, VF_ORDER (43_alu.md R171). A
change of the two goes through every instruction unseen. -/

namespace Sys2Proof.Proofs

open Sys2Proof Sys2Proof.Machine

/-- The state with another sound timer and another VF_ORDER. -/
def withHidden (b : Byte) (order : VfOrder) (s : State) : State :=
  { s with st := b, config := { s.config with vfOrder := order } }

/-- A change of the state an operation answers. -/
def mapNext (f : State → State) : Result → Result
  | .next t => .next (f t)
  | .fault r => .fault r
  | .refused r => .refused r

section
variable (b : Byte) (order : VfOrder) (s : State)

@[simp] theorem withHidden_reg (r : Reg) : (withHidden b order s).reg r = s.reg r := rfl
@[simp] theorem withHidden_index : (withHidden b order s).index = s.index := rfl
@[simp] theorem withHidden_pc : (withHidden b order s).pc = s.pc := rfl
@[simp] theorem withHidden_mem : (withHidden b order s).mem = s.mem := rfl
@[simp] theorem withHidden_glyphs : (withHidden b order s).config.glyphs = s.config.glyphs := rfl
@[simp] theorem withHidden_regBlock (x : Reg) : (withHidden b order s).regBlock x = s.regBlock x := rfl
@[simp] theorem withHidden_keyNamed (k : Byte) : (withHidden b order s).keyNamed k = s.keyNamed k := rfl
@[simp] theorem withHidden_foundKey : (withHidden b order s).foundKey = s.foundKey := rfl

theorem withHidden_skipIf (c : Bool) : (withHidden b order s).skipIf c = withHidden b order (s.skipIf c) := by
  cases c <;> rfl

@[simp] theorem withHidden_readBytes (a n : Nat) : readBytes (withHidden b order s) a n = readBytes s a n := by
  induction n generalizing a with
  | zero => rfl
  | succ n ih => rw [readBytes, readBytes, ih]; rfl

theorem withHidden_push (a : Word) : (withHidden b order s).push a = (s.push a).map (withHidden b order) := by
  rcases s.push_cases a with ⟨hfull, hpush⟩ | ⟨hroom, hpush⟩
  · rw [hpush]
    exact (withHidden b order s).push_full a hfull
  · rw [hpush]
    exact (withHidden b order s).push_room a hroom

theorem withHidden_pop : (withHidden b order s).pop = (s.pop.1, withHidden b order s.pop.2) := by
  by_cases h : 0 < s.sp.val
  · rw [s.pop_some h]
    exact (withHidden b order s).pop_some h
  · have hempty : s.sp = 0 := Fin.ext (Nat.eq_zero_of_not_pos h)
    rw [s.pop_empty hempty]
    exact (withHidden b order s).pop_empty hempty

/-- A shift of another register than VF does not see VF_ORDER; where the order is as before, no shift sees a change. -/
theorem withHidden_shiftWithFlag (x : Reg) (shifted : Byte → Byte) (f : Bool)
    (h : order = s.config.vfOrder ∨ x ≠ 15) :
    (withHidden b order s).shiftWithFlag x shifted f = withHidden b order (s.shiftWithFlag x shifted f) := by
  rcases h with rfl | hx
  · cases horder : s.config.vfOrder <;> simp only [State.shiftWithFlag, withHidden, horder] <;> rfl
  · rw [State.shiftWithFlag_other _ shifted f (x := x) hx, State.shiftWithFlag_other _ shifted f (x := x) hx]
    rfl

end

/-- A change of ST and VF_ORDER goes through every instruction but Fx18, which writes ST, and, where VF_ORDER does
change, the shifts of VF. -/
theorem exec_withHidden (i : Instr) (s : State) (b : Byte) (order : VfOrder) (hst : ∀ x, i ≠ .ldStV x)
    (horder : order = s.config.vfOrder ∨ (∀ y, i ≠ .shr 15 y) ∧ ∀ y, i ≠ .shl 15 y) :
    exec i (withHidden b order s) = mapNext (withHidden b order) (exec i s) := by
  cases i with
  | ldStV x => exact absurd rfl (hst x)
  | ret =>
    simp only [exec, execRet, withHidden_pop]
    rfl
  | call nnn =>
    cases h : s.push s.pc <;> simp [exec, execCall, withHidden_push, h] <;> rfl
  | seImm | sneImm | seReg | sneReg => exact congrArg Host.Outcome.next (withHidden_skipIf b order s _)
  | shr x y =>
    have hseen := horder.imp_right fun ⟨hshr, _⟩ (hx : x = 15) => hshr y (congrArg (Instr.shr · y) hx)
    exact congrArg Host.Outcome.next (withHidden_shiftWithFlag b order s x _ _ hseen)
  | shl x y =>
    have hseen := horder.imp_right fun ⟨_, hshl⟩ (hx : x = 15) => hshl y (congrArg (Instr.shl · y) hx)
    exact congrArg Host.Outcome.next (withHidden_shiftWithFlag b order s x _ _ hseen)
  | drw x y n =>
    cases h : readBytes s s.index.toNat n.val <;> simp [exec, execDrw, h] <;> rfl
  | skp x =>
    cases h : s.keyNamed (s.reg x) <;> simp [exec, execSkp, h, withHidden_skipIf] <;> rfl
  | sknp x =>
    cases h : s.keyNamed (s.reg x) <;> simp [exec, execSknp, h, withHidden_skipIf] <;> rfl
  | ldVK x =>
    cases h : s.foundKey <;> simp [exec, execLdVK, h] <;> rfl
  | ldB x =>
    cases h : writeBytes s.config.glyphs s.mem s.index.toNat (bcdDigits (s.reg x)) <;> simp [exec, execLdB, h] <;> rfl
  | ldMemStore x =>
    cases h : writeBytes s.config.glyphs s.mem s.index.toNat (s.regBlock x) <;> simp [exec, execLdMemStore, h] <;> rfl
  | ldMemLoad x =>
    cases h : readBytes s s.index.toNat (x.val + 1) <;> simp [exec, execLdMemLoad, h] <;> rfl
  | _ => rfl

theorem exec_keeps_st {i : Instr} {s t : State} (hexec : exec i s = .next t) (hst : ∀ x, i ≠ .ldStV x) :
    t.st = s.st := by
  obtain ⟨_, _, _, _, hkept, _⟩ := eachPartHasOnlyItsWriters i s t hexec
  exact hkept.resolve_right fun ⟨x, hx⟩ => hst x hx

theorem exec_keeps_config {i : Instr} {s t : State} (hexec : exec i s = .next t) : t.config = s.config := by
  obtain ⟨_, _, _, _, _, _, _, _, hconfig⟩ := eachPartHasOnlyItsWriters i s t hexec
  exact hconfig

/-- Settles O23: ST is left as it is and VF_ORDER alone changed; Fx18 reads neither. -/
theorem vfOrderSeenOnlyByShiftsOfVf : Obligations.VfOrderSeenOnlyByShiftsOfVf := by
  intro i s t order hshr hshl hexec
  by_cases hst : ∀ x, i ≠ .ldStV x
  · refine (exec_withHidden i s s.st order hst (.inr ⟨hshr, hshl⟩)).trans ?_
    rw [hexec, ← exec_keeps_st hexec hst]
    rfl
  · simp only [not_forall, not_not] at hst
    obtain ⟨x, rfl⟩ := hst
    cases hexec
    rfl

/-- Settles O50: VF_ORDER is left as it is and ST alone changed; Fx18 overwrites it. -/
theorem soundTimerIsNeverRead : Obligations.SoundTimerIsNeverRead := by
  intro i s t b hexec
  by_cases hst : ∃ x, i = .ldStV x
  · rw [if_pos hst]
    obtain ⟨x, rfl⟩ := hst
    cases hexec
    rfl
  · rw [if_neg hst]
    refine (exec_withHidden i s b s.config.vfOrder (fun x hx => hst ⟨x, hx⟩) (.inl rfl)).trans ?_
    rw [hexec, ← exec_keeps_config hexec]
    rfl

end Sys2Proof.Proofs

/-! PROOFS. The invariant over one step (10_state.md R27, 20_memory.md R60, 60_exceptions.md R241): memory, pc, the
stack and FAULT each have a lemma of their own. -/

namespace Sys2Proof.Proofs

open Sys2Proof Sys2Proof.Machine

/-- Every entry in use is at most 0x1000, as in the invariant. -/
def StackBound (s : State) : Prop := ∀ j : Fin 16, j.val < s.sp.val → s.stk[j.val].toNat ≤ 0x1000

/-! ### Memory -/

theorem wf_of_writeBytes {g : GlyphTable} {m m' : Memory} {a : Nat} {bs : List Byte} (hm : Memory.wf g m)
    (hwrite : writeBytes g m a bs = .ok m') : Memory.wf g m' := by
  rcases writeBytes_cases g m a bs with ⟨m₁, _, hok, _, hwf⟩ | ⟨bad, _, _, _, _, herror⟩
  · cases hwrite.symm.trans hok
    exact hwf hm
  · cases hwrite.symm.trans herror

/-- The canonical form survives every instruction: the two that write memory do so by writes in range. -/
theorem exec_keeps_wf {i : Instr} {s t : State} (hexec : exec i s = .next t) (hwf : Memory.wf s.config.glyphs s.mem) :
    Memory.wf s.config.glyphs t.mem := by
  obtain ⟨_, _, _, _, _, hmem, _⟩ := eachPartHasOnlyItsWriters i s t hexec
  rcases hmem with hmem | ⟨x, rfl⟩ | ⟨x, rfl⟩
  · rwa [hmem]
  · rcases execLdB_cases x s with ⟨m, hwrite, h⟩ | ⟨_, _, h⟩ <;> cases hexec.symm.trans h
    · exact wf_of_writeBytes hwf hwrite
    · exact hwf
  · rcases execLdMemStore_cases x s with ⟨m, hwrite, h⟩ | ⟨_, _, h⟩ <;> cases hexec.symm.trans h
    · exact wf_of_writeBytes hwf hwrite
    · exact hwf

/-! ### The pc -/

/-- From a pc just advanced past a word in memory no instruction moves pc above 0x10FE (R27); Bnnn reaches it. -/
theorem MovesPc.le {i : Instr} {s : State} {a : Word} (hmoves : MovesPc s i a) (hlo : 2 ≤ s.pc.toNat)
    (hhi : s.pc.toNat ≤ 0x1000) (hstack : StackBound s) : a.toNat ≤ 0x10FE := by
  cases hmoves with
  | retEmpty => decide
  | retEntry h => exact le_trans (hstack ⟨s.sp.val - 1, by omega⟩ (Nat.sub_lt h Nat.one_pos)) (by decide)
  | jp nnn | call nnn =>
    rw [zextAddr_toNat]
    omega
  | jpV0 nnn =>
    have hbyte := s.v0.isLt
    rw [zextAddr_add_zextByte_toNat]
    omega
  | skip => bv_omega
  | wait => bv_omega

/-! ### The stack -/

/-- A return address is pc just advanced, so it is at most 0x1000 (R27, R29). -/
theorem exec_keeps_stackBound {i : Instr} {s t : State} (hexec : exec i s = .next t) (hpc : s.pc.toNat ≤ 0x1000)
    (hstack : StackBound s) : StackBound t := by
  obtain ⟨_, _, hstk, _⟩ := eachPartHasOnlyItsWriters i s t hexec
  rcases hstk with ⟨hstk, hsp⟩ | rfl | ⟨nnn, rfl⟩
  · intro j hj
    simp only [hstk]
    exact hstack j (hsp ▸ hj)
  · rcases execRet_cases s with ⟨_, h⟩ | ⟨hpos, h⟩ <;> cases hexec.symm.trans h
    · exact hstack
    · exact fun j hj => hstack j (lt_of_lt_of_le hj (Nat.sub_le _ 1))
  · rcases execCall_cases nnn s with ⟨_, h⟩ | ⟨hroom, h⟩ <;> cases hexec.symm.trans h
    · exact hstack
    · intro j hj
      by_cases htop : s.sp.val = j.val
      · simpa [htop] using hpc
      · have hbelow : j.val < s.sp.val := by
          have hle : j.val < s.sp.val + 1 := hj
          omega
        simpa [Vector.getElem_set_ne, htop] using hstack j hbelow

/-! ### FAULT -/

theorem firstOutOfRange_above {lo n addr : Nat} (h : FirstOutOfRange lo n addr) : 0xFFF < addr := by
  obtain ⟨_, _, habove, _⟩ := h
  exact habove

/-- What an instruction records agrees with the address it was fetched from. -/
theorem Faults.agrees {i : Instr} {s : State} {record : FaultRecord} (hfault : Faults s i record)
    (hfetched : s.fetchedFrom.toNat ≤ 0xFFE) : record.agrees s.fetchedFrom := by
  cases hfault with
  | drw _ _ _ _ h | ldB _ _ h | ldMemStore _ _ h | ldMemLoad _ _ h =>
    exact ⟨rfl, hfetched, firstOutOfRange_above h⟩
  | skp _ h | sknp _ h => exact ⟨rfl, hfetched, h⟩

/-- Setting FAULT to a record that agrees with the state keeps the invariant. -/
theorem inv_setFault {s : State} {record : FaultRecord} (h : Inv s) (hagrees : record.agrees s.pc) :
    Inv (s.setFault (some record)) where
  memCanonical := h.memCanonical
  pcBound := h.pcBound
  stackBound := h.stackBound
  faultAgrees r hr := by
    cases hr
    exact hagrees

/-! ### The step -/

theorem advancePc_toNat {s : State} (hpc : s.pc.toNat ≤ 0xFFE) : s.advancePc.pc.toNat = s.pc.toNat + 2 := by
  rw [State.advancePc_eq, State.setPc_pc]
  bv_omega

/-- The instruction fetched from pc keeps the invariant. -/
theorem exec_advancePc_keeps_inv {i : Instr} {s t : State} (h : Inv s) (hnone : s.fault = none)
    (hpc : s.pc.toNat ≤ 0xFFE) (hexec : exec i s.advancePc = .next t) : Inv t := by
  have hadvanced := advancePc_toNat hpc
  rcases exec_next_cases hexec with hcompletes | ⟨record, hfault, rfl⟩
  · refine ⟨?mem, ?pc, ?stack, fun record hrecord => ?fault⟩
    case mem =>
      rw [exec_keeps_config hexec]
      exact exec_keeps_wf hexec h.memCanonical
    case pc =>
      rcases hcompletes.pc with hsame | hmoves
      · rw [hsame]
        omega
      · exact hmoves.le (by omega) (by omega) h.stackBound
    case stack => exact exec_keeps_stackBound hexec (by omega) h.stackBound
    case fault =>
      rw [hcompletes.fault_eq.trans hnone] at hrecord
      cases hrecord
  · have hagrees := hfault.agrees (by rwa [fetchedFrom_advancePc])
    rw [fetchedFrom_advancePc] at hagrees
    rw [faultedWith_advancePc]
    exact inv_setFault h hagrees

/-- Settles O53, by the four cases of a step. -/
theorem stepKeepsInvariant : Obligations.StepKeepsInvariant := by
  intro s t h hstep
  rcases step_cases s with ⟨_, hs⟩ | ⟨_, hpc, hs⟩ | ⟨hnone, hpc, _, i, _, _, hs⟩ | ⟨hnone, hpc, _, _, _, _, hs⟩
  · cases hstep.symm.trans hs
    exact h
  · cases hstep.symm.trans hs
    exact inv_setFault h ⟨rfl, hpc⟩
  · exact exec_advancePc_keeps_inv h hnone hpc (hs.symm.trans hstep)
  · cases hstep.symm.trans hs
    exact exec_advancePc_keeps_inv h hnone hpc (i := .nop) rfl

end Sys2Proof.Proofs

/-! PROOFS. Reset, the host operations and the runs (10_state.md R40, 60_exceptions.md R250 to R264). An operation other
than STEP writes only memory, in range, the timers and the keys. -/

namespace Sys2Proof.Proofs

open Sys2Proof Sys2Proof.Machine

/-! ### LOAD, SET_KEY, CLEAR_KEYS -/

/-- Settles O56: 3584 bytes from 0x200 on end at 0xFFF, so every write is in range. -/
theorem loadCopiesProgram : Obligations.LoadCopiesProgram := by
  intro bytes s
  refine ⟨fun hfits => ?fits, fun hlong => ?tooLong⟩
  case fits =>
    have hoffset : bootOffset.toNat = 0x200 := rfl
    obtain ⟨m, hm, hbytes, hother⟩ := writeBytes_stores s (a := bootOffset.toNat) (bs := bytes) (fun r hr => by omega)
    refine ⟨s.setMem m, ?_, hbytes, hother, frame_setMem s m⟩
    simp only [hostOp, hostLoad, maxLoad, if_pos hfits, hm]
  case tooLong =>
    have hrefused : hostOp (.load bytes) s = .refused (.loadTooLong bytes.length) := if_neg (not_le.mpr hlong)
    exact ⟨hrefused, by rw [afterOp, hrefused]⟩

theorem frame_setKey (s : State) (key : Vector Bool 16) : Frame [] [.key] s (s.setKey key) := by
  constructor <;> simp

/-- Settles O58. -/
theorem keyOperationsSetAndClear : Obligations.KeyOperationsSetAndClear := by
  intro s
  refine ⟨fun k => ?set, fun k hk => ?refused, ?clear⟩
  case set =>
    refine ⟨s.setKey (s.key.set k.val true), dif_pos k.isLt, by simp, fun j hj => ?_, frame_setKey s _⟩
    have hne : k.val ≠ j.val := fun e => hj (Fin.ext e.symm)
    simp [Vector.getElem_set_ne, hne]
  case refused =>
    have hrefused : hostOp (.setKey k) s = .refused (.keyOutOfRange k) := dif_neg (not_lt.mpr hk)
    exact ⟨hrefused, by rw [afterOp, hrefused]⟩
  case clear => exact ⟨_, rfl, by simp, frame_setKey s _⟩

/-! ### What an operation leaves unchanged -/

theorem afterOp_of_next {op : HostOp} {s t : State} (h : hostOp op s = .next t) : afterOp op s = t := by
  rw [afterOp, h]

/-- From `s` to `t` only memory, in its canonical form, the timers and the keys changed. -/
structure HostWrites (s t : State) : Prop where
  config : t.config = s.config
  pc : t.pc = s.pc
  stk : t.stk = s.stk
  sp : t.sp = s.sp
  fault : t.fault = s.fault
  wf : Memory.wf s.config.glyphs s.mem → Memory.wf s.config.glyphs t.mem

theorem hostWrites_refl (s : State) : HostWrites s s := ⟨rfl, rfl, rfl, rfl, rfl, id⟩

theorem hostLoad_writes (bytes : List Byte) (s : State) : HostWrites s (afterOp (.load bytes) s) := by
  by_cases hfits : bytes.length ≤ maxLoad
  · rcases hwrite : writeBytes s.config.glyphs s.mem bootOffset.toNat bytes with bad | m
    · have hrefused : hostOp (.load bytes) s = .refused (.loadTooLong bytes.length) := by
        simp only [hostOp, hostLoad, if_pos hfits, hwrite]
      rw [afterOp, hrefused]
      exact hostWrites_refl s
    · have hnext : hostOp (.load bytes) s = .next (s.setMem m) := by
        simp only [hostOp, hostLoad, if_pos hfits, hwrite]
      rw [afterOp_of_next hnext]
      exact ⟨rfl, rfl, rfl, rfl, rfl, fun hwf => wf_of_writeBytes hwf hwrite⟩
  · obtain ⟨_, hsame⟩ := (loadCopiesProgram bytes s).2 (not_le.mp hfits)
    rw [hsame]
    exact hostWrites_refl s

theorem hostSetKey_writes (k : Nat) (s : State) : HostWrites s (afterOp (.setKey k) s) := by
  by_cases hk : k < 16
  · have hnext : hostOp (.setKey k) s = .next (s.setKey (s.key.set k true)) := dif_pos hk
    rw [afterOp_of_next hnext]
    exact ⟨rfl, rfl, rfl, rfl, rfl, id⟩
  · have hrefused : hostOp (.setKey k) s = .refused (.keyOutOfRange k) := dif_neg hk
    rw [afterOp, hrefused]
    exact hostWrites_refl s

/-- Every operation but STEP, carried out or refused. -/
theorem afterOp_writes {op : HostOp} (hop : op ≠ .step) (s : State) : HostWrites s (afterOp op s) := by
  cases op with
  | step => exact absurd rfl hop
  | load bytes => exact hostLoad_writes bytes s
  | setKey k => exact hostSetKey_writes k s
  | tick | clearKeys => exact ⟨rfl, rfl, rfl, rfl, rfl, id⟩
  | readDisplay | readKeypad | readSoundTimer | readFault => exact hostWrites_refl s

theorem HostWrites.inv {s t : State} (hwrites : HostWrites s t) (h : Inv s) : Inv t := by
  obtain ⟨hconfig, hpc, hstk, hsp, hfault, hwf⟩ := hwrites
  refine ⟨?_, hpc ▸ h.pcBound, fun j hj => ?_, fun record hrecord => ?_⟩
  · rw [hconfig]
    exact hwf h.memCanonical
  · simp only [hstk]
    exact h.stackBound j (hsp ▸ hj)
  · rw [hpc]
    exact h.faultAgrees record (hfault ▸ hrecord)

/-- Settles O45: a step stands still, and the other operations write neither FAULT nor pc. -/
theorem faultedStateIsSticky : Obligations.FaultedStateIsSticky := by
  intro s hfault
  obtain ⟨record, hrecord⟩ := Option.ne_none_iff_exists'.mp hfault
  have hstep : step s = .next s := step_faulted hrecord
  refine ⟨hstep, fun op => ?_⟩
  by_cases hop : op = .step
  · rw [hop, afterOp_of_next (op := .step) hstep]
    exact ⟨rfl, rfl⟩
  · exact ⟨(afterOp_writes hop s).fault, (afterOp_writes hop s).pc⟩

theorem step_keeps_config {s t : State} (hstep : step s = .next t) : t.config = s.config := by
  rcases step_cases s with ⟨_, hs⟩ | ⟨_, _, hs⟩ | ⟨_, _, _, i, _, _, hs⟩ | ⟨_, _, _, _, _, _, hs⟩
  · cases hstep.symm.trans hs
    rfl
  · cases hstep.symm.trans hs
    rfl
  · exact exec_keeps_config (s := s.advancePc) (hs.symm.trans hstep)
  · cases hstep.symm.trans hs
    rfl

/-- Settles O60: STEP by O53, and the others by what they write. -/
theorem everyHostOperationKeepsInvariant : Obligations.EveryHostOperationKeepsInvariant := by
  intro op s h
  by_cases hop : op = .step
  · obtain ⟨t, hstep⟩ := stepAlwaysAnswersAState s
    rw [hop, afterOp_of_next (op := .step) hstep]
    exact ⟨stepKeepsInvariant s t h hstep, step_keeps_config hstep⟩
  · exact ⟨(afterOp_writes hop s).inv h, (afterOp_writes hop s).config⟩

/-! ### Reset -/

/-- Settles O52: an empty stack and no fault leave memory and pc, which the policies give. -/
theorem resetMeetsInvariant : Obligations.ResetMeetsInvariant := by
  intro policy config s hreset
  cases policy with
  | zero =>
    subst hreset
    exact ⟨Memory.wf_nil, show 0x200 ≤ 0x10FE by decide, fun j hj => absurd hj (Nat.not_lt_zero _), nofun⟩
  | arbitrary =>
    obtain ⟨rfl, hpc, hsp, hfault, hwf, _⟩ := hreset
    refine ⟨hwf, by rw [hpc]; decide, fun j hj => ?_, fun record hrecord => ?_⟩
    · rw [hsp] at hj
      exact absurd hj (Nat.not_lt_zero _)
    · rw [hfault] at hrecord
      cases hrecord

theorem config_of_isReset {policy : ResetPolicy} {config : Config} {s : State} (h : IsReset policy config s) :
    s.config = config := by
  cases policy with
  | zero => exact congrArg State.config h
  | arbitrary =>
    obtain ⟨hconfig, _⟩ := h
    exact hconfig

/-- Settles O54, by induction over the run: O52 at reset, O60 at every operation. -/
theorem reachableStatesMeetInvariant : Obligations.ReachableStatesMeetInvariant := by
  intro policy config s hreachable
  induction hreachable with
  | reset s hreset => exact ⟨resetMeetsInvariant policy config s hreset, config_of_isReset hreset⟩
  | op o s _ ih =>
    obtain ⟨hinv, hconfig⟩ := ih
    obtain ⟨hinv', hconfig'⟩ := everyHostOperationKeepsInvariant o s hinv
    exact ⟨hinv', hconfig'.trans hconfig⟩

theorem resetOf_reg (config : Config) (r : Reg) : (State.resetOf config).reg r = 0x00#8 := by
  simp [State.reg, State.resetOf, resetByte]

/-- Settles O55: under `arbitrary` it is what the policy says; under `zero` the one reset state has an empty list as its
memory and a zero everywhere else. -/
theorem resetStateIsAsTabled : Obligations.ResetStateIsAsTabled := by
  intro policy config s hreset
  cases policy with
  | zero =>
    subst hreset
    refine ⟨rfl, rfl, rfl, rfl, fun a ha => dif_pos ha, fun _ => ⟨resetOf_reg config, rfl, rfl, rfl, fun j => ?stk,
      fun a ha => dif_neg (not_lt.mpr ha), Screen.pixel_clear, fun k => ?key⟩⟩
    case stk => simp [State.resetOf, resetWord]
    case key => simp [State.resetOf]
  | arbitrary =>
    obtain ⟨hconfig, hpc, hsp, hfault, _, hglyphs⟩ := hreset
    exact ⟨by rw [hpc]; rfl, by rw [hsp]; rfl, hfault, hconfig, hglyphs, nofun⟩

end Sys2Proof.Proofs
